-- ==== Sys2Proof/Config.lean ====
section
/-!
DEFINITION. The parameters of the block (00_scope.md R8, R9) and the free values: what an instance fixes, and what the
spec leaves open. Every constant here that the spec calls OPEN or unspecified is opaque, so no proof can see its value.
-/

namespace Sys2Proof.Config

/-- How many usable elements the RingBuffer has beyond the one it must have; only `usable` reads it. OPEN (R8, D3). -/
opaque spareElements : Nat

/-- `N`, the usable elements of the RingBuffer. R8: a natural number, `N >= 1`, and nothing else is known of it. -/
def usable : Nat := spareElements + 1

/-- `TS_W`, the width of a RawEvent's timestamp. R8: a natural number, may be 0. OPEN (D4). -/
opaque tsW : Nat

/-- `SIZE`, the physical slots of a ring of `n` usable elements (R8). -/
def ringSize (n : Nat) : Nat := n + 1

/-- `FMAX`, the byte capacity of the frame buffer beside a ring of `n` usable elements (R8, D11). -/
def frameMax (n : Nat) : Nat := 4 * n

/-- `IDX_W`, the width of `start` and `end`: the smallest `w` with `2^w >= SIZE` (R8). -/
def idxW (n : Nat) : Nat := Nat.clog 2 (ringSize n)

/-- `LEN_W`, the width of the length counter: the smallest `w` with `2^w >= FMAX + 1` (R8). -/
def lenW (n : Nat) : Nat := Nat.clog 2 (frameMax n + 1)

/-! Free values. Each is applied to a counter of State (an era), so that every time the spec makes a register
unspecified a fresh unconstrained value stands there. DESIGN CHOICE, safe: log 4, 5, 6. -/

/-- `start` after the ring became unspecified (R21, R106, R190). -/
opaque freeStart : Nat → Nat

/-- `end` after the ring became unspecified (R21, R106, R190). -/
opaque freeEnd : Nat → Nat

/-- The payload of a slot nothing has written, by era and slot index (R24). -/
opaque freePayload : Nat → Nat → BitVec 32

/-- The timestamp of a slot nothing has written, by era and slot index (R24). -/
opaque freeStamp : Nat → Nat → BitVec tsW

/-- `len` between commands, after a pass (R20). -/
opaque freeLen : Nat → Nat

/-- A frame buffer byte nothing has written, by era and index (R31). -/
opaque freeByte : Nat → Nat → BitVec 8

/-- `done` between commands, after a pass (R20). -/
opaque freeDone : Nat → Bool

/-- `cur` between commands, after a pass (R20). -/
opaque freeCur : Nat → BitVec 32

/-- `lane` between commands, after a pass (R20). -/
opaque freeLane : Nat → BitVec 2

end Sys2Proof.Config
end

