-- ==== Sys2Proof/Word.lean ====
section
/-!
DEFINITION. The data the block moves: bytes, payloads, RawEvents (30_encoding.md R70, R71), and the two kinds of
encoded instruction: a byte of the stream (BYTE8, R73) and a command of the host (CMD, R80).
-/

namespace Sys2Proof

/-- A byte of the stream, an unsigned number in `0 .. 255` (R10). -/
abbrev Byte := BitVec 8

/-- The 32-bit payload of a RawEvent, an unsigned number (R10). -/
abbrev Payload := BitVec 32

/-- Format EVENT (R71): four packed bytes and an opaque timestamp, stored and returned whole (R27). -/
structure RawEvent where
  payload : Payload
  ts : BitVec Config.tsW
  deriving DecidableEq, Repr

/-- The bits of an EVENT operand: `payload` in bits 31:0, `ts` above it (R71). -/
abbrev EventBits := BitVec (Config.tsW + 32)

/-- An encoded instruction. The byte classes and the commands are decoded at two places (R2, R70), so a word says
which of the two formats it has. -/
inductive Word where
  /-- Format BYTE8: one byte of the stream (R73). -/
  | byte (b : Byte)
  /-- Format CMD: the 3-bit code `cmd[2:0]` and the EVENT operand, which only `RB_WRITE` reads (R80). -/
  | cmd (code : BitVec 3) (operand : EventBits)
  deriving DecidableEq, Repr

end Sys2Proof
end

