-- ==== Sys2Proof/Syntax.lean ====
section
/-!
DEFINITION. The instructions: the five byte actions of the extractor (30_encoding.md R73) and the seven commands of the
host (R80). The seven rows of `STAT` in spec/opcode_table.json are one instruction, one constructor (R73, R75; log 16).
-/

namespace Sys2Proof

/-- One instruction of the block. A byte action carries the byte it was selected by, where its class has more than one
value. -/
inductive Instr where
  /-- `DATA`, byte values `0x00 .. 0x7F`: store a data byte (R127). -/
  | data (b : Byte)
  /-- `STAT`, byte values `0x80 .. 0xEF` and `0xF1 .. 0xF6`: abandon the frame in progress (R125). -/
  | stat (b : Byte)
  /-- `HDR`, byte value `0xF0`: start, or restart, a frame (R124). -/
  | hdr
  /-- `TERM`, byte value `0xF7`: end the frame (R126). -/
  | term
  /-- `RT`, byte values `0xF8 .. 0xFF`: skip a real-time status byte (R123). -/
  | rt (b : Byte)
  /-- `RB_INIT`: create the RingBuffer, empty (R101). -/
  | rbInit
  /-- `RB_ISFULL`: is the queue full? (R102) -/
  | rbIsFull
  /-- `RB_ISEMPTY`: is the queue empty? (R103) -/
  | rbIsEmpty
  /-- `RB_WRITE ev`: append an event, evicting the oldest from a full queue (R104). -/
  | rbWrite (ev : RawEvent)
  /-- `RB_READ`: remove and return the oldest event (R105). -/
  | rbRead
  /-- `RB_FREE`: destroy the RingBuffer (R106). -/
  | rbFree
  /-- `FX_EXTRACT`: one pass of the FrameExtractor (R140). -/
  | fxExtract
  deriving DecidableEq, Repr

/-- The five byte classes, the extractor's opcode map (R73). -/
inductive ByteClass where
  | data | stat | hdr | term | rt
  deriving DecidableEq, Repr

end Sys2Proof
end

