-- ==== Sys2Proof/Decode.lean ====
section
/-!
DEFINITION. Decoding: the class of a byte (30_encoding.md R73, R74), the command of a code (R80, R81), the EVENT operand
(R71), and the encoder written from the same tables.
-/

namespace Sys2Proof

/-- The class of a byte, in the order the document makes its tests (R74). -/
def classify (b : Byte) : ByteClass :=
  if 0xF8#8 ≤ b then .rt
  else if b = 0xF0#8 then .hdr
  else if b = 0xF7#8 then .term
  else if b.getLsbD 7 then .stat
  else .data

/-- A row of the byte class map: a byte `b` matches when `b AND mask = pat`. -/
structure ByteRow where
  cls : ByteClass
  pat : Byte
  mask : Byte
  deriving DecidableEq, Repr

/-- The eleven byte rows of R73's two tables, as spec/opcode_table.json lists them. -/
def byteRows : List ByteRow :=
  [⟨.data, 0x00, 0x80⟩,
   ⟨.stat, 0x80, 0xC0⟩, ⟨.stat, 0xC0, 0xE0⟩, ⟨.stat, 0xE0, 0xF0⟩, ⟨.stat, 0xF1, 0xFF⟩,
   ⟨.stat, 0xF2, 0xFE⟩, ⟨.stat, 0xF4, 0xFE⟩, ⟨.stat, 0xF6, 0xFF⟩,
   ⟨.hdr, 0xF0, 0xFF⟩, ⟨.term, 0xF7, 0xFF⟩, ⟨.rt, 0xF8, 0xF8⟩]

/-- Does the byte match the row? -/
def ByteRow.hits (r : ByteRow) (b : Byte) : Bool := b &&& r.mask == r.pat

/-- The byte action a byte selects. Total: no byte value is illegal or reserved (R79). -/
def decodeByte (b : Byte) : Instr :=
  match classify b with
  | .rt => .rt b
  | .hdr => .hdr
  | .term => .term
  | .stat => .stat b
  | .data => .data b

/-- The event of an EVENT operand (R71). -/
def eventOfBits (v : EventBits) : RawEvent :=
  { payload := v.extractLsb' 0 32, ts := v.extractLsb' 32 Config.tsW }

/-- The bits of an event: `ts` above `payload` (R71). -/
def bitsOfEvent (ev : RawEvent) : EventBits := ev.ts ++ ev.payload

/-- Why a word is no instruction. -/
inductive DecodeError where
  /-- Command code `0b111`: reserved, not a command (R81). -/
  | reservedCommand
  deriving DecidableEq, Repr

/-- The command of a code and operand (R80, R81). Commands without an operand do not look at it (log 15). -/
def decodeCmd (code : BitVec 3) (operand : EventBits) : Except DecodeError Instr :=
  match code.toNat with
  | 0 => .ok .rbInit
  | 1 => .ok .rbIsFull
  | 2 => .ok .rbIsEmpty
  | 3 => .ok (.rbWrite (eventOfBits operand))
  | 4 => .ok .rbRead
  | 5 => .ok .rbFree
  | 6 => .ok .fxExtract
  | _ => .error .reservedCommand

/-- The instruction of a word, or the name of what it is instead. -/
def decode : Word → Except DecodeError Instr
  | .byte b => .ok (decodeByte b)
  | .cmd code operand => decodeCmd code operand

/-- The word of an instruction, from the encodings of R73 and R80. The operand of a command that has none is written as
zeros (log 15). -/
def encode : Instr → Word
  | .data b => .byte b
  | .stat b => .byte b
  | .hdr => .byte 0xF0
  | .term => .byte 0xF7
  | .rt b => .byte b
  | .rbInit => .cmd 0b000 0
  | .rbIsFull => .cmd 0b001 0
  | .rbIsEmpty => .cmd 0b010 0
  | .rbWrite ev => .cmd 0b011 (bitsOfEvent ev)
  | .rbRead => .cmd 0b100 0
  | .rbFree => .cmd 0b101 0
  | .fxExtract => .cmd 0b110 0

/-- The word that a row of spec/opcode_table.json with `nbits` bits and the bits `w` stands for. The table gives both
formats 8 bits when counted in whole bytes, and does not number which format a row has, so this function, which only
the host's tick of the table calls, reads the seven command codes first and every other 8-bit word as a byte (log 14).
A longer word is a command with its EVENT operand above the code. -/
def wordOfTable (nbits w : Nat) : Word :=
  if nbits = 8 ∧ 7 ≤ w then .byte (BitVec.ofNat 8 w)
  else .cmd (BitVec.ofNat 3 w) (BitVec.ofNat _ (w / 8))

/-- The instruction the decoder reads from the table's bits; none where it refuses. -/
def decodeTableWord (nbits w : Nat) : Option Instr :=
  match decode (wordOfTable nbits w) with
  | .ok i => some i
  | .error _ => none

end Sys2Proof
end

