-- ==== Sys2Proof/Machine/State.lean ====
section
/-!
DEFINITION. The state of the block (10_state.md R20) as plain data, its value after hardware reset (R38), and what the
host sees of it (R29, R177).
-/

namespace Sys2Proof.Machine

/-- Why the machine stops. Neither is an event of the spec (60_exceptions.md R160 lists those, and they are next states
here): each is an access to a place the spec says does not exist, which no command makes from a state whose registers
hold the legal values of R20 (log 12). -/
inductive Fault where
  /-- `start` or `end` holds an index outside `0 .. SIZE-1`: raised by `RB_WRITE`, `RB_READ`, `FX_EXTRACT`. Safe. -/
  | indexRange
  /-- A store to `fbuf[i]` with `i >= FMAX`: raised by `HDR`, `TERM`, `DATA`, `FX_EXTRACT`. Safe. -/
  | frameRange
  deriving DecidableEq, Repr

/-- Why the machine has no meaning for what it was given. -/
inductive Refusal where
  /-- An instruction whose meaning is not written; `exec`'s arms only. Safe. -/
  | notModelled (mnemonic : String)
  /-- The host issued the command code `0b111`, which is no command (30_encoding.md R81); raised by `step`. Safe. -/
  | reservedCommand
  deriving DecidableEq, Repr

/-- The control register `life` (R21): does the RingBuffer exist? -/
inductive Life where
  | uninit | ready
  deriving DecidableEq, Repr

/-- The two faults of the spec, by their bit of the `fault` register (R29, R160). -/
inductive FaultCode where
  | notReady | underflow
  deriving DecidableEq, Repr

/-- What a command hands back to the host (R80, R161). -/
inductive Reply where
  /-- No value. -/
  | nothing
  /-- The one bit of `RB_ISFULL` and `RB_ISEMPTY`. -/
  | bit (b : Bool)
  /-- The event of `RB_READ`. -/
  | event (ev : RawEvent)
  /-- The triple `(found, length, frame)` of `FX_EXTRACT` (R35). -/
  | result (found : Bool) (length : Nat) (frame : List Byte)
  /-- The fault indication, in place of a value (R161). -/
  | fault (c : FaultCode)
  deriving DecidableEq, Repr

/-- What the outside does to the block. It gives the extractor no byte: those come from the RawEvents in the RingBuffer
alone (00_scope.md R15; log 11). -/
inductive Request where
  /-- A command of the host: its 3-bit code and the EVENT operand, which only `RB_WRITE` reads (R80; log 9, 15). -/
  | command (code : BitVec 3) (operand : EventBits)
  /-- Hardware reset of a block that may have run (70_reset_and_hazards.md R190). -/
  | hardwareReset
  deriving DecidableEq, Repr

/-- A register file as cells `(index, value)`, indices strictly rising; an index not listed was never written. -/
abbrev Cells (α : Type) := List (Nat × α)

/-- The complete state of the block (R20), and after it the model's own four fields. -/
structure State where
  /-- Control register `life` (R21). -/
  life : Life
  /-- Status register `fault`: bit 0 `NOT_READY`, bit 1 `UNDERFLOW` (R29). -/
  fault : BitVec 2
  /-- Index of the slot that holds the oldest element (R22). -/
  start : Nat
  /-- `end`: index of the slot the next write fills (R23). -/
  end_ : Nat
  /-- `slot[0 .. SIZE-1]` (R24). -/
  slots : Cells RawEvent
  /-- Bytes of the frame in progress (R30). -/
  len : Nat
  /-- `fbuf[0 .. FMAX-1]` (R31). -/
  fbuf : List Host.Cell
  /-- A frame is complete in this pass (R32). -/
  done : Bool
  /-- The payload of the event read last (R33). -/
  cur : Payload
  /-- The lane being scanned (R33). -/
  lane : BitVec 2
  /-- The model's: what the outside has issued and the block has not executed, oldest first (log 9). -/
  inbox : List Request
  /-- The model's: what the last command handed back (log 10). -/
  reply : Reply
  /-- The model's: numbers the free values of `start`, `end` and unwritten slots (log 4, 5). -/
  ringEra : Nat
  /-- The model's: numbers the free values of the working registers and unwritten `fbuf` bytes (log 4, 6). -/
  passEra : Nat
  deriving DecidableEq, Repr

/-- The state after hardware reset (R38): `life = UNINIT`, `fault = 0b00`. The spec leaves every other register
unspecified; the zeros are DESIGN CHOICE, unsafe (log 3). Nothing is listed in `slots` and `fbuf` (log 4). -/
def State.reset : State where
  life := .uninit
  fault := 0
  start := 0
  end_ := 0
  slots := []
  len := 0
  fbuf := []
  done := false
  cur := 0
  lane := 0
  inbox := []
  reply := .nothing
  ringEra := 0
  passEra := 0

end Sys2Proof.Machine
end

