-- ==== Sys2Proof/Machine/Ops.lean ====
section
/-!
DEFINITION. The named operations over registers and register files, raising a fault (60_exceptions.md R161), and what
makes state unspecified. Operations that depend on the instance's size take `n`, the usable count `N` (00_scope.md R8).
-/

namespace Sys2Proof.Machine

open Sys2Proof.Config (ringSize frameMax)

/-- What a step of the machine answers. -/
abbrev Out := Host.Outcome State Fault Refusal

/-- Go on from a next state; a fault or a refusal stands. -/
def andThen (o : Out) (k : State → Out) : Out :=
  match o with
  | .next s => k s
  | .fault r => .fault r
  | .refused r => .refused r

/-! Register files. -/

/-- The value last written at an index, if any. -/
def cellsGet {α : Type} (i : Nat) : Cells α → Option α
  | [] => none
  | (j, v) :: rest => if j = i then some v else cellsGet i rest

/-- Write at an index, keeping the indices strictly rising. -/
def cellsPut {α : Type} (i : Nat) (v : α) : Cells α → Cells α
  | [] => [(i, v)]
  | (j, u) :: rest =>
    if i < j then (i, v) :: (j, u) :: rest
    else if i = j then (i, v) :: rest
    else (j, u) :: cellsPut i v rest

/-- The canonical form of a register file: indices strictly rising. An index not listed reads as no stored value, so no
entry can equal what an unlisted one reads as. -/
def Memory.wf {α : Type} : Cells α → Bool
  | [] => true
  | [_] => true
  | (i, _) :: (j, v) :: rest => decide (i < j) && Memory.wf ((j, v) :: rest)

/-- `slot[i]` (R24): what was last written there, or an unspecified value if nothing was (log 4). -/
def State.slotAt (s : State) (i : Nat) : RawEvent :=
  match cellsGet i s.slots with
  | some ev => ev
  | none => { payload := Config.freePayload s.ringEra i, ts := Config.freeStamp s.ringEra i }

/-- `fbuf[i]` (R31): what was last written there, or an unspecified value if nothing was (log 4). -/
def State.fbufAt (s : State) (i : Nat) : Byte :=
  match cellsGet i s.fbuf with
  | some b => b
  | none => Config.freeByte s.passEra i

/-! Register updates, one field each. -/

/-- `life <- l` -/
def State.setLife (l : Life) (s : State) : State := { s with life := l }

/-- `start <- i` -/
def State.setStart (i : Nat) (s : State) : State := { s with start := i }

/-- `end <- i` -/
def State.setEnd (i : Nat) (s : State) : State := { s with end_ := i }

/-- `slot[i] <- ev` -/
def State.putSlot (i : Nat) (ev : RawEvent) (s : State) : State := { s with slots := cellsPut i ev s.slots }

/-- `len <- k` -/
def State.setLen (k : Nat) (s : State) : State := { s with len := k }

/-- `fbuf[i] <- b` -/
def State.putByte (i : Nat) (b : Byte) (s : State) : State := { s with fbuf := cellsPut i b s.fbuf }

/-- `done <- d` -/
def State.setDone (d : Bool) (s : State) : State := { s with done := d }

/-- `cur <- p` -/
def State.setCur (p : Payload) (s : State) : State := { s with cur := p }

/-- `lane <- k` -/
def State.setLane (k : BitVec 2) (s : State) : State := { s with lane := k }

/-- Hand a value back to the host. -/
def State.answer (r : Reply) (s : State) : State := { s with reply := r }

/-! Faults of the block. -/

/-- The bit of the `fault` register (R29). -/
def FaultCode.bit : FaultCode → BitVec 2
  | .notReady => 0b01
  | .underflow => 0b10

/-- `raise Fault(code)` (R161): set the sticky bit, leave every other piece of the block's state, tell the host of the
fault in place of a value. There is no trap and nothing to return from (R169, R170). -/
def State.raise (c : FaultCode) (s : State) : State := { s with fault := s.fault ||| c.bit, reply := .fault c }

/-- The life-cycle guard (R100): the command runs in the state `l`, and faults `NOT_READY` in the other. -/
def whenLife (l : Life) (s : State) (run : Out) : Out :=
  if s.life = l then run else .next (s.raise .notReady)

/-! Accesses to the two index spaces (20_memory.md R50). An index outside a space is outside what exists (log 12). -/

/-- `SlotRead(i)` (R11). -/
def slotRead (n i : Nat) (s : State) (k : RawEvent → Out) : Out :=
  if i < ringSize n then k (s.slotAt i) else .fault .indexRange

/-- `SlotWrite(i, ev)` (R11). -/
def slotWrite (n i : Nat) (ev : RawEvent) (s : State) (k : State → Out) : Out :=
  if i < ringSize n then k (s.putSlot i ev) else .fault .indexRange

/-- `FbufWrite(i, b)` (R11). -/
def fbufWrite (n i : Nat) (b : Byte) (s : State) (k : State → Out) : Out :=
  if i < frameMax n then k (s.putByte i b) else .fault .frameRange

/-! State that becomes unspecified. Each takes fresh free values, inside the legal values of R20. -/

/-- `start`, `end` and every slot become unspecified (R21, R106; log 5). -/
def State.dropRing (n : Nat) (s : State) : State :=
  { s with
    start := Config.freeStart (s.ringEra + 1) % ringSize n
    end_ := Config.freeEnd (s.ringEra + 1) % ringSize n
    slots := []
    ringEra := s.ringEra + 1 }

/-- The working state of a pass becomes unspecified (R20, R34; log 6). -/
def State.dropPass (n : Nat) (s : State) : State :=
  { s with
    len := Config.freeLen (s.passEra + 1) % (frameMax n + 1)
    fbuf := []
    done := Config.freeDone (s.passEra + 1)
    cur := Config.freeCur (s.passEra + 1)
    lane := Config.freeLane (s.passEra + 1)
    passEra := s.passEra + 1 }

/-- `fault <- 0b00`, which only hardware reset does (R29, R161). -/
def State.clearFault (s : State) : State := { s with fault := 0 }

/-- Hardware reset of a block that may have run (R190): `life <- UNINIT`, `fault <- 0b00`, everything else
unspecified. -/
def State.hardwareReset (n : Nat) (s : State) : State :=
  ((((s.setLife .uninit).clearFault).dropRing n).dropPass n).answer .nothing

end Sys2Proof.Machine
end

