-- ==== Sys2Proof/Machine/Flags.lean ====
section
/-!
DEFINITION. The conditions of the block, each computed from the registers and never stored (10_state.md R28), the
modes of the extractor (41_extractor_byte_ops.md R120), and the status outputs (R29).
-/

namespace Sys2Proof.Machine

open Sys2Proof.Config (ringSize)

/-- The successor modulo `SIZE`, the only arithmetic of the RingBuffer (R107). -/
def nextIndex (n i : Nat) : Nat := (i + 1) % ringSize n

/-- `isFull`: `(end+1) mod SIZE == start` (R28). -/
def State.isFull (n : Nat) (s : State) : Bool := nextIndex n s.end_ == s.start

/-- `isEmpty`: `end == start` (R28). -/
def State.isEmpty (s : State) : Bool := s.end_ == s.start

/-- The three modes of the extractor during a pass (R120). -/
inductive Mode where
  | idle | accum | done
  deriving DecidableEq, Repr

/-- The mode, told from `done` and `len` (R120). -/
def State.mode (s : State) : Mode :=
  if s.done then .done else if s.len = 0 then .idle else .accum

/-- The status output `life` as a bit: UNINIT = 0, READY = 1 (R20, R29). -/
def State.lifeOut (s : State) : BitVec 1 :=
  match s.life with
  | .uninit => 0
  | .ready => 1

/-- The status output `fault` (R29). -/
def State.faultOut (s : State) : BitVec 2 := s.fault

end Sys2Proof.Machine
end

