-- ==== Sys2Proof/Machine/Operands.lean ====
section
/-!
DEFINITION. The operand forms: the four lanes of a payload (20_memory.md R52), `slot[start]` and `slot[end]` with
post-increment (40_ringbuffer_ops.md R108), and `fbuf[len]` with post-increment (41_extractor_byte_ops.md R122).
-/

namespace Sys2Proof.Machine

/-- Lane `k` of a payload: the bit field `p[8k+7 : 8k]` (R52, R53). -/
def laneByte (p : Payload) (k : BitVec 2) : Byte := p.extractLsb' (8 * k.toNat) 8

/-- `slot[start]` with post-increment of `start`: take the oldest event (R108). -/
def takeOldest (n : Nat) (s : State) (k : RawEvent → State → Out) : Out :=
  slotRead n s.start s fun ev => k ev (s.setStart (nextIndex n s.start))

/-- `slot[end]` with post-increment of `end` (R108). -/
def putNewest (n : Nat) (ev : RawEvent) (s : State) (k : State → Out) : Out :=
  slotWrite n s.end_ ev s fun s1 => k (s1.setEnd (nextIndex n s1.end_))

/-- `fbuf[len]` with post-increment of `len` (R122). -/
def pushByte (n : Nat) (b : Byte) (s : State) (k : State → Out) : Out :=
  fbufWrite n s.len b s fun s1 => k (s1.setLen (s1.len + 1))

/-- `fbuf[0 .. len-1]`, the bytes of the frame in progress (R31). -/
def State.frameBytes (s : State) : List Byte := (List.range s.len).map s.fbufAt

end Sys2Proof.Machine
end

