-- ==== Sys2Proof/Machine/ByteActions.lean ====
section
/-!
DEFINITION. The extractor's five byte actions (41_extractor_byte_ops.md R123 to R127), by the columns of the transition
table R122: what each does in the modes IDLE, ACCUM and DONE.
-/

namespace Sys2Proof.Machine

/-- `RT` (R123): nothing, in every mode. -/
def rtAction (s : State) : Out := .next s

/-- `HDR` (R124): start a frame, or restart the one in progress; nothing in DONE. -/
def hdrAction (n : Nat) (s : State) : Out :=
  match s.mode with
  | .idle | .accum => fbufWrite n 0 0xF0 s fun s1 => .next (s1.setLen 1)
  | .done => .next s

/-- `STAT` (R125): abandon the frame in progress; nothing in IDLE and DONE. -/
def statAction (s : State) : Out :=
  match s.mode with
  | .accum => .next (s.setLen 0)
  | .idle | .done => .next s

/-- `TERM` (R126): store the terminator and end the frame; nothing in IDLE and DONE. -/
def termAction (n : Nat) (s : State) : Out :=
  match s.mode with
  | .accum => pushByte n 0xF7 s fun s1 => .next (s1.setDone true)
  | .idle | .done => .next s

/-- `DATA` (R127): store the byte; nothing in IDLE and DONE. -/
def dataAction (n : Nat) (b : Byte) (s : State) : Out :=
  match s.mode with
  | .accum => pushByte n b s .next
  | .idle | .done => .next s

/-- One byte, one action: the one its class names (R121). -/
def byteAction (n : Nat) (b : Byte) (s : State) : Out :=
  match classify b with
  | .rt => rtAction s
  | .hdr => hdrAction n s
  | .stat => statAction s
  | .term => termAction n s
  | .data => dataAction n b s

/-- The meaning of `RT`; all eight values act alike. -/
def execRt (_b : Byte) (s : State) : Out := rtAction s

/-- The meaning of `HDR`. -/
def execHdr (s : State) : Out := hdrAction Config.usable s

/-- The meaning of `STAT`; all 118 values act alike. -/
def execStat (_b : Byte) (s : State) : Out := statAction s

/-- The meaning of `TERM`. -/
def execTerm (s : State) : Out := termAction Config.usable s

/-- The meaning of `DATA`. -/
def execData (b : Byte) (s : State) : Out := dataAction Config.usable b s

end Sys2Proof.Machine
end

