-- ==== Sys2Proof/Machine/Pass.lean ====
section
/-!
DEFINITION. The extraction pass, command `FX_EXTRACT` (42_extractor_pass.md R140).
-/

namespace Sys2Proof.Machine

open Sys2Proof.Config (ringSize)

/-- Scan one lane of `cur`: one byte, one action, and none in mode DONE (R140, R144). -/
def scanLane (n : Nat) (k : BitVec 2) (s : State) : Out :=
  byteAction n (laneByte (s.setLane k).cur (s.setLane k).lane) (s.setLane k)

/-- Scan the four lanes of an event, lane 0 first (R144). -/
def scanEvent (n : Nat) (ev : RawEvent) (s : State) : Out :=
  andThen (andThen (andThen (scanLane n 0 (s.setCur ev.payload)) (scanLane n 1)) (scanLane n 2)) (scanLane n 3)

/-- Drain the RingBuffer until empty (R140 step 1). `turns` bounds the loop: with the indices in range at most `N` turns
are made (R151), so running out of turns means an index register outside its legal values (log 12). -/
def drain (n : Nat) : Nat → State → Out
  | 0, s => if s.isEmpty then .next s else .fault .indexRange
  | turns + 1, s =>
    if s.isEmpty then .next s
    else takeOldest n s fun ev s1 => andThen (scanEvent n ev s1) (drain n turns)

/-- The return value of a pass: the triple of R35, found (step 5) or not found (step 6, R149). -/
def State.passResult (s : State) : Reply :=
  if s.done then .result true s.len s.frameBytes else .result false 0 []

/-- `FX_EXTRACT` (R140). After it the working state is unspecified (R20; log 6). -/
def fxExtract (n : Nat) (s : State) : Out :=
  whenLife .ready s
    (andThen (drain n (ringSize n) ((s.setLen 0).setDone false)) fun t => .next ((t.answer t.passResult).dropPass n))

/-- The meaning of `FX_EXTRACT`. -/
def execFxExtract (s : State) : Out := fxExtract Config.usable s

end Sys2Proof.Machine
end

