-- ==== Sys2Proof/Machine/RingBuffer.lean ====
section
/-!
DEFINITION. The six RingBuffer commands (40_ringbuffer_ops.md R101 to R106), each once for a ring of any size `n` and
once as the meaning of the instruction in the block's own instance.
-/

namespace Sys2Proof.Machine

/-- `RB_INIT` (R101). The slots are not written (log 7). -/
def rbInit (s : State) : Out :=
  whenLife .uninit s (.next ((((s.setStart 0).setEnd 0).setLife .ready).answer .nothing))

/-- `RB_ISFULL` (R102). -/
def rbIsFull (n : Nat) (s : State) : Out :=
  whenLife .ready s (.next (s.answer (.bit (s.isFull n))))

/-- `RB_ISEMPTY` (R103). -/
def rbIsEmpty (s : State) : Out :=
  whenLife .ready s (.next (s.answer (.bit s.isEmpty)))

/-- Evict the oldest element when a write has filled the last slot: `start` advances (R104). -/
def evictIfFilled (n : Nat) (s : State) : State :=
  if s.end_ = s.start then s.setStart (nextIndex n s.start) else s

/-- `RB_WRITE ev` (R104). -/
def rbWrite (n : Nat) (ev : RawEvent) (s : State) : Out :=
  whenLife .ready s (putNewest n ev s fun s1 => .next ((evictIfFilled n s1).answer .nothing))

/-- `RB_READ` (R105): `UNDERFLOW` on an empty queue (R163), else the oldest event. -/
def rbRead (n : Nat) (s : State) : Out :=
  whenLife .ready s
    (if s.isEmpty then .next (s.raise .underflow)
     else takeOldest n s fun ev s1 => .next (s1.answer (.event ev)))

/-- `RB_FREE` (R106): `start`, `end` and the slots become unspecified (log 5). -/
def rbFree (n : Nat) (s : State) : Out :=
  whenLife .ready s (.next (((s.setLife .uninit).dropRing n).answer .nothing))

/-- The meaning of `RB_INIT`. -/
def execRbInit (s : State) : Out := rbInit s

/-- The meaning of `RB_ISFULL`. -/
def execRbIsFull (s : State) : Out := rbIsFull Config.usable s

/-- The meaning of `RB_ISEMPTY`. -/
def execRbIsEmpty (s : State) : Out := rbIsEmpty s

/-- The meaning of `RB_WRITE`. -/
def execRbWrite (ev : RawEvent) (s : State) : Out := rbWrite Config.usable ev s

/-- The meaning of `RB_READ`. -/
def execRbRead (s : State) : Out := rbRead Config.usable s

/-- The meaning of `RB_FREE`. -/
def execRbFree (s : State) : Out := rbFree Config.usable s

end Sys2Proof.Machine
end

