-- ==== Sys2Proof/Machine/Dispatch.lean ====
section
/-!
DEFINITION. The dispatch: one arm per instruction, each one call of its meaning.
-/

namespace Sys2Proof.Machine

def exec (i : Instr) (s : State) : Host.Outcome State Fault Refusal :=
  match i with
  | .data b => Sys2Proof.Machine.execData b s
  | .stat b => Sys2Proof.Machine.execStat b s
  | .hdr => Sys2Proof.Machine.execHdr s
  | .term => Sys2Proof.Machine.execTerm s
  | .rt b => Sys2Proof.Machine.execRt b s
  | .rbInit => Sys2Proof.Machine.execRbInit s
  | .rbIsFull => Sys2Proof.Machine.execRbIsFull s
  | .rbIsEmpty => Sys2Proof.Machine.execRbIsEmpty s
  | .rbWrite ev => Sys2Proof.Machine.execRbWrite ev s
  | .rbRead => Sys2Proof.Machine.execRbRead s
  | .rbFree => Sys2Proof.Machine.execRbFree s
  | .fxExtract => Sys2Proof.Machine.execFxExtract s

end Sys2Proof.Machine
end

