-- ==== Sys2Proof/Machine/Fetch.lean ====
section
/-!
DEFINITION. Executing one request of the outside: a command, decoded and run (30_encoding.md R80, R81), or hardware reset
(70_reset_and_hazards.md R190); and how an encoded instruction of either format is placed for the next step.
-/

namespace Sys2Proof.Machine

/-- Execute one encoded command. The reserved code is refused and executes nothing (R81). -/
def runCommand (code : BitVec 3) (operand : EventBits) (s : State) : Host.Outcome State Fault Refusal :=
  match decode (.cmd code operand) with
  | .ok i => exec i s
  | .error .reservedCommand => .refused .reservedCommand

/-- Execute one request. -/
def runRequest (r : Request) (s : State) : Host.Outcome State Fault Refusal :=
  match r with
  | .command code operand => runCommand code operand s
  | .hardwareReset => .next (State.hardwareReset Config.usable s)

/-- The host issues one command more, ahead of all others: it is what the next step executes. -/
def State.issue (code : BitVec 3) (operand : EventBits) (s : State) : State :=
  { s with inbox := .command code operand :: s.inbox }

/-- The request at the head of the inbox is taken from it. -/
def State.take (rest : List Request) (s : State) : State := { s with inbox := rest }

/-- The RingBuffer holds one event, which carries the byte in lane 0. The other lanes hold `0xF8`, a real-time byte, which
does nothing in any mode (41_extractor_byte_ops.md R123; log 11). -/
def State.queueByte (b : Byte) (s : State) : State :=
  { s with
    life := .ready
    start := 0
    end_ := 1
    slots := cellsPut 0 { payload := 0xF8F8F8#24 ++ b, ts := 0 } s.slots }

/-- Place an encoded instruction so that the next step runs it: a command is issued; a byte is put into the RingBuffer,
which is the only place the extractor takes bytes from (00_scope.md R15), and a pass is issued (log 11, 18). -/
def State.place (w : Word) (s : State) : State :=
  match w with
  | .cmd code operand => s.issue code operand
  | .byte b => (s.queueByte b).issue 0b110 0

end Sys2Proof.Machine
end

