-- ==== Sys2Proof/Machine/Step.lean ====
section
/-!
DEFINITION. One step: the block executes the next command the host has issued, atomically (20_memory.md R58, R62).
-/

namespace Sys2Proof.Machine

/-- One step. With nothing issued the block does nothing (10_state.md R38; 60_exceptions.md R173). -/
def step (s : State) : Host.Outcome State Fault Refusal :=
  match s.inbox with
  | [] => .next s
  | r :: rest => runRequest r (s.take rest)

/-- The state whose next step runs the instruction with the table's bits `w`; it stands for the host
issuing that command, or a pass over an event that carries that byte (log 11, 18). -/
def State.withFetchWord (s : State) (nbits w : Nat) : State := s.place (wordOfTable nbits w)

end Sys2Proof.Machine
end

