-- ==== Sys2Proof/Safety.lean ====
section
/-!
DEFINITION. The terms claims use: the abstract view of the queue (00_scope.md R13), the byte stream (R12), what a
complete frame in a stream is (41_extractor_byte_ops.md R130), the invariant of the registers (10_state.md R20, R25),
the abstract machine of R40, and runs with what the host observes of them (60_exceptions.md R177).
-/

namespace Sys2Proof.Machine

open Sys2Proof.Config (ringSize frameMax)

/-! The queue. -/

/-- `count = (end - start) mod SIZE` (R13, R25). -/
def State.count (n : Nat) (s : State) : Nat := (s.end_ + ringSize n - s.start) % ringSize n

/-- `contents`: the slots of the live window, oldest first (R13, R24). -/
def State.contents (n : Nat) (s : State) : List RawEvent :=
  (List.range (s.count n)).map fun k => s.slotAt ((s.start + k) % ringSize n)

/-- The bytes of one event, lane 0 first (R12, R72). -/
def eventBytes (ev : RawEvent) : List Byte :=
  [laneByte ev.payload 0, laneByte ev.payload 1, laneByte ev.payload 2, laneByte ev.payload 3]

/-- The byte stream of a sequence of events (R12). -/
def streamOf (q : List RawEvent) : List Byte := q.flatMap eventBytes

/-! Frames in a stream. -/

/-- A stream with its real-time bytes taken out (R77, R130). -/
def withoutRt (bs : List Byte) : List Byte := bs.filter fun b => classify b != .rt

/-- Positions `i < j` of a stream bound a frame: a header, data bytes only, a terminator (R76, R130). -/
def FrameAt (bs : List Byte) (i j : Nat) : Prop :=
  i < j ∧ bs[i]? = some 0xF0#8 ∧ bs[j]? = some 0xF7#8 ∧
    ∀ k b, i < k → k < j → bs[k]? = some b → classify b = .data

/-- `f` is the frame of the stream that ends first (R130). -/
def FirstFrame (bs f : List Byte) : Prop :=
  ∃ i j, FrameAt (withoutRt bs) i j ∧ (∀ i' j', FrameAt (withoutRt bs) i' j' → j ≤ j') ∧
    f = ((withoutRt bs).drop i).take (j - i + 1)

/-- The stream completes no frame (R130, R153). -/
def NoFrame (bs : List Byte) : Prop := ∀ i j, ¬ FrameAt (withoutRt bs) i j

/-- What a pass has made of the bytes scanned so far: the modes of R120 with the frame they hold. -/
inductive Scan where
  | idle
  | accum (f : List Byte)
  | found (f : List Byte)
  deriving DecidableEq, Repr

/-- The transition table of R122. -/
def Scan.next (σ : Scan) (b : Byte) : Scan :=
  match σ, classify b with
  | .found f, _ => .found f
  | σ, .rt => σ
  | _, .hdr => .accum [0xF0]
  | _, .stat => .idle
  | .accum f, .term => .found (f ++ [0xF7])
  | .idle, .term => .idle
  | .accum f, .data => .accum (f ++ [b])
  | .idle, .data => .idle

/-- The frame a pass finds, as a function of the stream (R121, R140). -/
def firstFrame (bs : List Byte) : Option (List Byte) :=
  match bs.foldl Scan.next .idle with
  | .found f => some f
  | _ => none

/-- The working registers of a pass, as a scan. -/
def State.scan (s : State) : Scan :=
  match s.mode with
  | .idle => .idle
  | .accum => .accum s.frameBytes
  | .done => .found s.frameBytes

/-! The invariant. -/

/-- The index registers hold legal values (R20, R25). -/
structure InRange (n : Nat) (s : State) : Prop where
  start_lt : s.start < ringSize n
  end_lt : s.end_ < ringSize n

/-- What every state of a run has: every register inside the legal values of R20, the register files in canonical form
and inside their index spaces, every slot of the live window written (R24), and no slot kept in UNINIT (R106). -/
structure Inv (n : Nat) (s : State) : Prop extends InRange n s where
  len_le : s.len ≤ frameMax n
  slots_wf : Memory.wf s.slots = true
  slots_lt : ∀ p ∈ s.slots, p.1 < ringSize n
  fbuf_wf : Memory.wf s.fbuf = true
  fbuf_lt : ∀ p ∈ s.fbuf, p.1 < frameMax n
  live : s.life = .ready → ∀ k, k < s.count n → (cellsGet ((s.start + k) % ringSize n) s.slots).isSome = true
  gone : s.life = .uninit → s.slots = []

end Sys2Proof.Machine

namespace Sys2Proof

open Machine

/-! Commands. -/

/-- The seven commands, as against the five byte actions (R2). -/
def Instr.isCommand : Instr → Bool
  | .data _ => false
  | .stat _ => false
  | .hdr => false
  | .term => false
  | .rt _ => false
  | .rbInit => true
  | .rbIsFull => true
  | .rbIsEmpty => true
  | .rbWrite _ => true
  | .rbRead => true
  | .rbFree => true
  | .fxExtract => true

/-- The `life` a command requires (R100, R140). -/
def Instr.needs : Instr → Life
  | .rbInit => .uninit
  | _ => .ready

end Sys2Proof

namespace Sys2Proof.Machine

open Sys2Proof.Config (ringSize frameMax)

/-! Runs. -/

/-- What the host observes after a command: what was handed back, and the two status outputs (R177). -/
structure Observation where
  reply : Reply
  life : Life
  fault : BitVec 2
  deriving DecidableEq, Repr

/-- The observation a state shows. -/
def State.observation (s : State) : Observation := ⟨s.reply, s.life, s.fault⟩

/-- Execute instructions in order (R62). -/
def execAll : List Instr → State → Out
  | [], s => .next s
  | i :: is, s => andThen (exec i s) (execAll is)

/-- The observations of a sequence of commands, as far as it runs (R177). -/
def observations : List Instr → State → List Observation
  | [], _ => []
  | i :: is, s =>
    match exec i s with
    | .next t => t.observation :: observations is t
    | .fault _ => []
    | .refused _ => []

/-- The start condition `CleanReset` (R177). -/
def CleanReset (s : State) : Prop := s.life = .uninit ∧ s.fault = 0

/-- The start condition `CleanReady(q)` (R177). -/
def CleanReady (n : Nat) (q : List RawEvent) (s : State) : Prop :=
  s.life = .ready ∧ s.fault = 0 ∧ s.contents n = q

/-! The abstract machine (R40). -/

/-- The persistent state as the host can tell it: `(life, q, fault)` (R40). -/
structure View where
  life : Life
  queue : List RawEvent
  fault : BitVec 2
  deriving DecidableEq, Repr

/-- The view of a state; `q` has a meaning in READY only (R40). -/
def State.view (n : Nat) (s : State) : View :=
  { life := s.life
    queue := match s.life with
      | .ready => s.contents n
      | .uninit => []
    fault := s.fault }

/-- Raising a fault, on the view (R161). -/
def View.raise (v : View) (c : FaultCode) : View × Reply := ({ v with fault := v.fault ||| c.bit }, .fault c)

/-- A command that the life-cycle guard lets run, on `contents`: the "On contents" lines of R101 to R106 and R140. -/
def View.run (n : Nat) (v : View) : Instr → View × Reply
  | .rbInit => ({ v with life := .ready, queue := [] }, .nothing)
  | .rbIsFull => (v, .bit (v.queue.length == n))
  | .rbIsEmpty => (v, .bit (v.queue.length == 0))
  | .rbWrite ev =>
    ({ v with queue := (if v.queue.length = n then v.queue.tail else v.queue) ++ [ev] }, .nothing)
  | .rbRead =>
    match v.queue with
    | [] => v.raise .underflow
    | ev :: q => ({ v with queue := q }, .event ev)
  | .rbFree => ({ v with life := .uninit, queue := [] }, .nothing)
  | .fxExtract =>
    ({ v with queue := [] },
      match firstFrame (streamOf v.queue) with
      | some f => .result true f.length f
      | none => .result false 0 [])
  | .data _ => (v, .nothing)
  | .stat _ => (v, .nothing)
  | .hdr => (v, .nothing)
  | .term => (v, .nothing)
  | .rt _ => (v, .nothing)

/-- A command as a function of the view and its operand (R40, R100). -/
def View.exec (n : Nat) (v : View) (i : Instr) : View × Reply :=
  if v.life = i.needs then v.run n i else v.raise .notReady

end Sys2Proof.Machine
end

