-- ==== Sys2Proof/WellFormed.lean ====
section
/-!
DEFINITION. Which instructions as syntax stand for an encoding: a byte action's byte is of its own class (30_encoding.md
R73). Commands have no ill-formed operands: every payload and every timestamp is legal (R71).
-/

namespace Sys2Proof

/-- The instruction stands for an encoding of the spec. -/
def Instr.wellFormed : Instr → Bool
  | .data b => classify b == .data
  | .stat b => classify b == .stat
  | .hdr => true
  | .term => true
  | .rt b => classify b == .rt
  | .rbInit => true
  | .rbIsFull => true
  | .rbIsEmpty => true
  | .rbWrite _ => true
  | .rbRead => true
  | .rbFree => true
  | .fxExtract => true

end Sys2Proof
end

