-- ==== Sys2Proof/Certificates/Slice0/Obligations.lean ====
section
/-!
DEFINITION. The statements for the provers. `N` of the spec is `Config.usable`, `SIZE` is `ringSize Config.usable`,
`FMAX` is `frameMax Config.usable`; all three are opaque, so a statement holds for every `N >= 1` and every `TS_W`.
-/

open Sys2Proof Sys2Proof.Machine
open Sys2Proof.Config (usable ringSize frameMax)

/-! ## Encoding -/

/-- Words written out bit by bit from 30_encoding.md R73 and R80 decode to the instructions they stand for. That the six
commands without an operand are decoded whatever the operand bits `v` are is the model's choice (log 15). -/
def Obligations.SampleWordsDecode : Prop :=
  decode (.byte 0b00000000) = .ok (.data 0x00) ∧ decode (.byte 0b01111111) = .ok (.data 0x7F) ∧
  decode (.byte 0b10010000) = .ok (.stat 0x90) ∧ decode (.byte 0b11101111) = .ok (.stat 0xEF) ∧
  decode (.byte 0b11110001) = .ok (.stat 0xF1) ∧ decode (.byte 0b11110110) = .ok (.stat 0xF6) ∧
  decode (.byte 0b11110000) = .ok .hdr ∧ decode (.byte 0b11110111) = .ok .term ∧
  decode (.byte 0b11111000) = .ok (.rt 0xF8) ∧ decode (.byte 0b11111111) = .ok (.rt 0xFF) ∧
  (∀ v, decode (.cmd 0b000 v) = .ok .rbInit) ∧ (∀ v, decode (.cmd 0b001 v) = .ok .rbIsFull) ∧
  (∀ v, decode (.cmd 0b010 v) = .ok .rbIsEmpty) ∧ (∀ v, decode (.cmd 0b100 v) = .ok .rbRead) ∧
  (∀ v, decode (.cmd 0b101 v) = .ok .rbFree) ∧ (∀ v, decode (.cmd 0b110 v) = .ok .fxExtract) ∧
  ∀ ts : BitVec Config.tsW, decode (.cmd 0b011 (ts ++ 0b00110011001000100001000111110000#32)) =
    .ok (.rbWrite { payload := 0x332211F0, ts := ts })

/-- Every well-formed instruction, with every operand, is decoded from its own word. -/
def Obligations.DecodeEncodeRoundTrip : Prop :=
  ∀ i : Instr, i.wellFormed = true → decode (encode i) = .ok i

/-- What is decoded is well-formed and encodes to the word it was decoded from; a command without an operand loses the
operand bits it does not look at (log 15), `RB_WRITE` loses none. -/
def Obligations.DecodedWordsReencode : Prop :=
  ∀ (w : Word) (i : Instr), decode w = .ok i →
    i.wellFormed = true ∧
    (∀ b, w = .byte b → encode i = .byte b) ∧
    (∀ code v, w = .cmd code v → ∃ u, encode i = .cmd code u ∧ (code = 0b011#3 → u = v))

/-- R73: the five classes by their byte values, each byte in exactly one row of the table, and how many bytes each class
has. -/
def Obligations.ByteClassesPartition : Prop :=
  (∀ b : Byte,
    (classify b = .data ↔ b.toNat ≤ 0x7F) ∧
    (classify b = .stat ↔ (0x80 ≤ b.toNat ∧ b.toNat ≤ 0xEF) ∨ (0xF1 ≤ b.toNat ∧ b.toNat ≤ 0xF6)) ∧
    (classify b = .hdr ↔ b.toNat = 0xF0) ∧
    (classify b = .term ↔ b.toNat = 0xF7) ∧
    (classify b = .rt ↔ 0xF8 ≤ b.toNat) ∧
    (byteRows.filter fun r => r.hits b).map ByteRow.cls = [classify b]) ∧
  ∀ c : ByteClass, ((List.range 256).filter fun k => classify (BitVec.ofNat 8 k) == c).length =
    match c with
    | .data => 128
    | .stat => 118
    | .hdr => 1
    | .term => 1
    | .rt => 8

/-- R81: code `0b111` is no command, whatever the operand bits; a step refuses it, and no instruction has it as its
word. -/
def Obligations.ReservedCodeRefused : Prop :=
  ∀ v : EventBits,
    decode (.cmd 0b111 v) = .error .reservedCommand ∧
    (∀ s : State, step (s.issue 0b111 v) = .refused .reservedCommand) ∧
    ∀ i : Instr, encode i ≠ .cmd 0b111 v

/-! ## The step -/

/-- The step executes the decoded command on the state with that request taken from the inbox, and adds nothing. How the
byte instructions come to be executed is `PassRunsStreamBytes`: inside the step that executes `FX_EXTRACT`. -/
def Obligations.StepRunsDecodedInstruction : Prop :=
  ∀ (s : State) (code : BitVec 3) (operand : EventBits) (rest : List Request) (i : Instr),
    s.inbox = .command code operand :: rest → decode (.cmd code operand) = .ok i →
      i.wellFormed = true ∧ i.isCommand = true ∧ step s = exec i { s with inbox := rest }

/-- Requests are executed one at a time in the order issued: a step takes the first and leaves the others (R62). -/
def Obligations.StepTakesOneRequest : Prop :=
  ∀ s t : State, step s = .next t → t.inbox = s.inbox.tail

/-- After reset `life` is UNINIT and `fault` is 0, and the block does nothing until something is issued (R38). -/
def Obligations.IdleUntilCommand : Prop :=
  State.reset.life = .uninit ∧ State.reset.fault = 0b00#2 ∧ State.reset.inbox = [] ∧
  ∀ s : State, s.inbox = [] → step s = .next s

/-- Hardware reset of a block in any state (R190). That `start`, `end` and `len` stay inside the legal values of R20 is
the model's choice (log 5, 6). -/
def Obligations.HardwareResetEffect : Prop :=
  ∀ (s : State) (rest : List Request), s.inbox = .hardwareReset :: rest →
    ∃ t, step s = .next t ∧ t.life = .uninit ∧ t.fault = 0b00#2 ∧ t.reply = .nothing ∧ t.inbox = rest ∧
      InRange usable t ∧ t.len ≤ frameMax usable

/-! ## Faults and the life cycle -/

/-- No step but hardware reset clears a bit of `fault` (R29, R161). -/
def Obligations.FaultBitsAreSticky : Prop :=
  ∀ (s t : State) (k : Nat), s.inbox.head? ≠ some .hardwareReset → step s = .next t →
    s.fault.getLsbD k = true → t.fault.getLsbD k = true

/-- A command that reports a fault has set that bit and changed nothing else of the block (R161, R169). -/
def Obligations.FaultedCommandChangesNothingElse : Prop :=
  ∀ (i : Instr) (s t : State) (c : FaultCode), i.isCommand = true → exec i s = .next t → t.reply = .fault c →
    t = { s with
      fault := s.fault ||| (match c with
        | .notReady => 0b01#2
        | .underflow => 0b10#2)
      reply := .fault c }

/-- R100, and R140 for `FX_EXTRACT`: a command issued in the other `life` state sets `fault[0]`, changes nothing else,
and returns no value. -/
def Obligations.WrongLifeFaultsNotReady : Prop :=
  ∀ (i : Instr) (s : State), i.isCommand = true →
    s.life ≠ (if i = .rbInit then .uninit else .ready) →
      exec i s = .next { s with fault := s.fault ||| 0b01#2, reply := .fault .notReady }

/-- R167: at most one fault in a command, the life-cycle guard first, then for `RB_READ` only the empty test. -/
def Obligations.AtMostOneFaultGuardFirst : Prop :=
  (∀ (i : Instr) (s t : State), i.isCommand = true → exec i s = .next t →
    t.fault = s.fault ∨ (t.fault = s.fault ||| 0b01#2 ∧ t.reply = .fault .notReady) ∨
      (i = .rbRead ∧ s.life = .ready ∧ t.fault = s.fault ||| 0b10#2 ∧ t.reply = .fault .underflow)) ∧
  (∀ s : State, s.life = .uninit →
    exec .rbRead s = .next { s with fault := s.fault ||| 0b01#2, reply := .fault .notReady })

/-- R163: `RB_READ` on an empty queue faults, returns no event and moves no index; `FX_EXTRACT` never raises
`UNDERFLOW`. -/
def Obligations.ReadEmptyUnderflows : Prop :=
  (∀ s : State, s.life = .ready → s.end_ = s.start →
    exec .rbRead s = .next { s with fault := s.fault ||| 0b10#2, reply := .fault .underflow }) ∧
  ∀ s t : State, exec .fxExtract s = .next t →
    t.reply ≠ .fault .underflow ∧ t.fault.getLsbD 1 = s.fault.getLsbD 1

/-- R29: `life` is written only by `RB_INIT`, to READY, and by `RB_FREE`, to UNINIT. -/
def Obligations.OnlyInitAndFreeWriteLife : Prop :=
  ∀ (i : Instr) (s t : State), exec i s = .next t → t.life ≠ s.life →
    (i = .rbInit ∧ t.life = .ready) ∨ (i = .rbFree ∧ t.life = .uninit)

/-! ## RingBuffer commands -/

/-- `RB_INIT` gives an empty queue at index 0, writes no slot and keeps `fault`; in READY it faults (R101). The equation
for the next state also says that every slot and the working registers hold what they held, where R20 and R39 call them
unspecified after `RB_INIT`: for the slots that is the model's reading (log 7), for the working registers its choice
(log 5). -/
def Obligations.InitCreatesEmptyRing : Prop :=
  ∀ s : State,
    (s.life = .uninit → ∃ t, exec .rbInit s = .next t ∧
      t = { s with life := .ready, start := 0, end_ := 0, reply := .nothing } ∧
      t.contents usable = [] ∧ t.isEmpty = true ∧ t.isFull usable = false) ∧
    (s.life = .ready →
      exec .rbInit s = .next { s with fault := s.fault ||| 0b01#2, reply := .fault .notReady })

/-- R102: `RB_ISFULL` answers whether `(end + 1) mod SIZE == start`, which is whether the queue holds `N` events, and
changes nothing. -/
def Obligations.IsFullAnswersFullness : Prop :=
  ∀ s : State,
    (s.life = .ready → InRange usable s →
      exec .rbIsFull s = .next { s with reply := .bit (decide ((s.end_ + 1) % ringSize usable = s.start)) } ∧
      ((s.end_ + 1) % ringSize usable = s.start ↔ (s.contents usable).length = usable)) ∧
    (s.life = .uninit →
      exec .rbIsFull s = .next { s with fault := s.fault ||| 0b01#2, reply := .fault .notReady })

/-- R103: `RB_ISEMPTY` answers whether `end == start`, which is whether the queue holds no event, and changes nothing;
after any pass it answers 1, as a claim about two commands with `fault = 0` as its premise (R161). -/
def Obligations.IsEmptyAnswersEmptiness : Prop :=
  ∀ s : State,
    (s.life = .ready → InRange usable s →
      exec .rbIsEmpty s = .next { s with reply := .bit (decide (s.end_ = s.start)) } ∧
      (s.end_ = s.start ↔ (s.contents usable).length = 0) ∧
      ∃ t, exec .fxExtract s = .next t ∧ t.end_ = t.start ∧
        (s.fault = 0b00#2 → ∃ u, exec .rbIsEmpty t = .next u ∧ u.reply = .bit true ∧ u.fault = 0b00#2)) ∧
    (s.life = .uninit →
      exec .rbIsEmpty s = .next { s with fault := s.fault ||| 0b01#2, reply := .fault .notReady })

/-- R104: `RB_WRITE` stores at `end`, advances `end`, and advances `start` when the queue was full; on `contents` it
drops the oldest of a full queue and appends. -/
def Obligations.WriteAppends : Prop :=
  ∀ (ev : RawEvent) (s : State),
    (s.life = .ready → InRange usable s → ∃ t, exec (.rbWrite ev) s = .next t ∧
      t = { s with
        slots := cellsPut s.end_ ev s.slots
        end_ := (s.end_ + 1) % ringSize usable
        start := if (s.end_ + 1) % ringSize usable = s.start then (s.start + 1) % ringSize usable else s.start
        reply := .nothing } ∧
      t.contents usable =
        (if (s.contents usable).length = usable then (s.contents usable).tail else s.contents usable) ++ [ev] ∧
      t.isEmpty = false ∧
      (t.isFull usable = true ↔
        (s.contents usable).length + 1 = usable ∨ (s.contents usable).length = usable)) ∧
    (s.life = .uninit →
      exec (.rbWrite ev) s = .next { s with fault := s.fault ||| 0b01#2, reply := .fault .notReady })

/-- R109: testing full first, evicting, and then storing reaches the same state as storing first. -/
def Obligations.WriteOrdersAgree : Prop :=
  ∀ (ev : RawEvent) (s : State), s.life = .ready → InRange usable s →
    let room : State :=
      if (s.end_ + 1) % ringSize usable = s.start then { s with start := (s.start + 1) % ringSize usable } else s
    exec (.rbWrite ev) s = .next { room with
      slots := cellsPut room.end_ ev room.slots
      end_ := (room.end_ + 1) % ringSize usable
      reply := .nothing }

/-- R105: `RB_READ` returns `slot[start]`, the oldest event, and advances `start`; on an empty queue it faults
`UNDERFLOW` and returns no event. -/
def Obligations.ReadReturnsOldest : Prop :=
  ∀ s : State,
    (s.life = .ready → InRange usable s → s.end_ ≠ s.start → ∃ t, exec .rbRead s = .next t ∧
      t = { s with start := (s.start + 1) % ringSize usable, reply := .event (s.slotAt s.start) } ∧
      s.contents usable = s.slotAt s.start :: t.contents usable ∧
      t.isFull usable = false ∧ (t.isEmpty = true ↔ (s.contents usable).length = 1)) ∧
    (s.life = .ready → s.end_ = s.start →
      exec .rbRead s = .next { s with fault := s.fault ||| 0b10#2, reply := .fault .underflow }) ∧
    (s.life = .uninit →
      exec .rbRead s = .next { s with fault := s.fault ||| 0b01#2, reply := .fault .notReady })

/-- R106: `RB_FREE` destroys the ring and keeps `fault`; a new `RB_INIT` then gives an empty queue, which is claimed with
`fault = 0` as its premise (R161). That the unspecified `start` and `end` stay in range is the model's choice (log 5), and
so is that the working state is kept (log 5). -/
def Obligations.FreeDropsRing : Prop :=
  ∀ s : State, s.life = .ready →
    ∃ t, exec .rbFree s = .next t ∧ t.life = .uninit ∧ t.fault = s.fault ∧ t.reply = .nothing ∧
      t.inbox = s.inbox ∧ t.len = s.len ∧ t.fbuf = s.fbuf ∧ t.done = s.done ∧ t.cur = s.cur ∧ t.lane = s.lane ∧
      t.passEra = s.passEra ∧ InRange usable t ∧
      (s.fault = 0b00#2 →
        ∃ u, exec .rbInit t = .next u ∧ u.life = .ready ∧ u.contents usable = [] ∧ u.fault = 0b00#2)

/-- The block's share of §8 item 7: init, free, init again, and the queue is empty with no fault (R106). -/
def Obligations.FreedRingReopens : Prop :=
  ∀ s : State, CleanReset s →
    ∃ t, execAll [.rbInit, .rbFree, .rbInit, .rbIsEmpty] s = .next t ∧ t.reply = .bit true ∧ CleanReady usable [] t

/-- R110, which the spec derives from R101, R104 and R105: after `RB_INIT` and `k` writes the queue is the last `min(k, N)` events written, in order; as many reads
return exactly them, and the queue is then empty. The physical store never leaves its `SIZE` slots. -/
def Obligations.MostRecentWritesSurvive : Prop :=
  ∀ (s : State) (ws : List RawEvent), CleanReset s → Inv usable s →
    ∃ t u,
      execAll (.rbInit :: ws.map .rbWrite) s = .next t ∧
      CleanReady usable (ws.drop (ws.length - min ws.length usable)) t ∧
      (∀ p ∈ t.slots, p.1 < ringSize usable) ∧
      execAll (List.replicate (min ws.length usable) .rbRead) t = .next u ∧
      CleanReady usable [] u ∧
      (observations (List.replicate (min ws.length usable) .rbRead) t).map Observation.reply =
        (ws.drop (ws.length - min ws.length usable)).map .event

/-- R107, which the spec derives from R25: the successor on the index space, the wrap at `N`, and that it is a bijection of the space. -/
def Obligations.NextIndexIsSuccessor : Prop :=
  (∀ i, i < ringSize usable →
    nextIndex usable i = (if i < usable then i + 1 else 0) ∧ nextIndex usable i < ringSize usable) ∧
  (∀ i j, i < ringSize usable → j < ringSize usable → nextIndex usable i = nextIndex usable j → i = j) ∧
  (∀ j, j < ringSize usable → ∃ i, i < ringSize usable ∧ nextIndex usable i = j)

/-- Hazard H-1 (R193): when `RB_ISEMPTY` answers 0, the `RB_READ` that follows returns an event and does not fault.
`fault = 0` is the premise R161 asks of a claim about a command sequence. -/
def Obligations.CheckedReadSucceeds : Prop :=
  ∀ s t : State, s.life = .ready → s.fault = 0b00#2 → InRange usable s →
    exec .rbIsEmpty s = .next t → t.reply = .bit false →
      ∃ u ev, exec .rbRead t = .next u ∧ u.reply = .event ev ∧ (s.contents usable).head? = some ev ∧ u.fault = 0b00#2

/-- The frame of the ring commands: no slot but the one `RB_WRITE` stores to changes, no command but `RB_FREE` drops
slots, and none touches the working state, the frame buffer or the inbox. That `RB_INIT` leaves every slot's value as it was
is the model's reading (log 7), since R20 and R39 call the slots unspecified after it; that these commands keep the
working state, which R20 calls unspecified between commands, is the model's choice (log 5). -/
def Obligations.RingCommandsFrame : Prop :=
  ∀ (i : Instr) (s t : State),
    (i = .rbInit ∨ i = .rbIsFull ∨ i = .rbIsEmpty ∨ i = .rbRead ∨ i = .rbFree ∨ ∃ ev, i = .rbWrite ev) →
    exec i s = .next t →
      (t.len = s.len ∧ t.done = s.done ∧ t.cur = s.cur ∧ t.lane = s.lane ∧ t.inbox = s.inbox) ∧
      (∀ j, t.fbufAt j = s.fbufAt j) ∧
      (i = .rbIsFull ∨ i = .rbIsEmpty → t.start = s.start ∧ t.end_ = s.end_) ∧
      (i = .rbRead → t.end_ = s.end_) ∧
      (i ≠ .rbFree → (∀ ev, i ≠ .rbWrite ev) → ∀ j, t.slotAt j = s.slotAt j) ∧
      (∀ ev, i = .rbWrite ev → ∀ j, j ≠ s.end_ → t.slotAt j = s.slotAt j) ∧
      (∀ ev, i = .rbWrite ev → s.life = .ready → t.slotAt s.end_ = ev)

/-! ## Byte actions -/

/-- R123: a real-time byte does nothing, in every mode. -/
def Obligations.RealTimeBytesSkipped : Prop :=
  ∀ (b : Byte) (s : State), 0xF8 ≤ b.toNat → decode (.byte b) = .ok (.rt b) ∧ exec (.rt b) s = .next s

/-- R124: a header starts a frame, or restarts the one in progress, in IDLE and ACCUM alike; in DONE it does nothing. -/
def Obligations.HeaderStartsFrame : Prop :=
  decode (.byte 0xF0) = .ok .hdr ∧
  ∀ s : State,
    (s.done = false → ∃ t, exec .hdr s = .next t ∧
      t = { s with fbuf := cellsPut 0 0xF0#8 s.fbuf, len := 1 } ∧ t.frameBytes = [0xF0#8]) ∧
    (s.done = true → exec .hdr s = .next s)

/-- R125: a status byte abandons the frame in progress and writes nothing else; in IDLE and in DONE it does nothing. -/
def Obligations.StatusByteAbandons : Prop :=
  ∀ (b : Byte) (s : State), (0x80 ≤ b.toNat ∧ b.toNat ≤ 0xEF) ∨ (0xF1 ≤ b.toNat ∧ b.toNat ≤ 0xF6) →
    decode (.byte b) = .ok (.stat b) ∧
    (s.done = false → 0 < s.len → exec (.stat b) s = .next { s with len := 0 }) ∧
    (s.done = false → s.len = 0 → exec (.stat b) s = .next s) ∧
    (s.done = true → exec (.stat b) s = .next s)

/-- R126: while accumulating, the terminator is stored, counted, and ends the frame; in IDLE and in DONE it does
nothing. -/
def Obligations.TerminatorEndsFrame : Prop :=
  decode (.byte 0xF7) = .ok .term ∧
  ∀ s : State,
    (s.done = false → 0 < s.len → s.len < frameMax usable → ∃ t, exec .term s = .next t ∧
      t = { s with fbuf := cellsPut s.len 0xF7#8 s.fbuf, len := s.len + 1, done := true } ∧
      t.frameBytes = s.frameBytes ++ [0xF7#8]) ∧
    (s.done = false → s.len = 0 → exec .term s = .next s) ∧
    (s.done = true → exec .term s = .next s)

/-- R127: while accumulating, a data byte is stored and counted; in IDLE and in DONE it is ignored. -/
def Obligations.DataByteStored : Prop :=
  ∀ (b : Byte) (s : State), b.toNat ≤ 0x7F →
    decode (.byte b) = .ok (.data b) ∧
    (s.done = false → 0 < s.len → s.len < frameMax usable → ∃ t, exec (.data b) s = .next t ∧
      t = { s with fbuf := cellsPut s.len b s.fbuf, len := s.len + 1 } ∧ t.frameBytes = s.frameBytes ++ [b]) ∧
    (s.done = false → s.len = 0 → exec (.data b) s = .next s) ∧
    (s.done = true → exec (.data b) s = .next s)

/-- A store that the frame buffer has no place for stops, by name. The spec bounds the index (R31, R50) and says nothing
of such a store; the stop is the model's choice (log 12). -/
def Obligations.FullBufferStoreStops : Prop :=
  ∀ (b : Byte) (s : State), s.done = false → 0 < s.len → frameMax usable ≤ s.len →
    exec (.data b) s = .fault .frameRange ∧ exec .term s = .fault .frameRange

/-- R122: the transition table written as one function in the document's order of tests, and no action in DONE. -/
def Obligations.ByteActionMatchesTable : Prop :=
  ∀ (b : Byte) (s : State),
    (s.done = true → exec (decodeByte b) s = .next s) ∧
    (s.done = false → s.len < frameMax usable →
      exec (decodeByte b) s = .next
        (if 0xF8 ≤ b.toNat then s
         else if b.toNat = 0xF0 then { s with fbuf := cellsPut 0 0xF0#8 s.fbuf, len := 1 }
         else if 0 < s.len then
           if b.getLsbD 7 = true ∧ b.toNat ≠ 0xF7 then { s with len := 0 }
           else { s with
             fbuf := cellsPut s.len b s.fbuf
             len := s.len + 1
             done := decide (b.toNat = 0xF7) }
         else s))

/-- R128, which the spec derives from R122: the extractor's only changes of mode. -/
def Obligations.ModeTransitions : Prop :=
  ∀ (b : Byte) (s t : State), exec (decodeByte b) s = .next t →
    match s.mode, classify b with
    | .idle, .hdr => t.mode = .accum
    | .idle, _ => t.mode = .idle
    | .accum, .hdr => t.mode = .accum
    | .accum, .data => t.mode = .accum
    | .accum, .rt => t.mode = .accum
    | .accum, .stat => t.mode = .idle
    | .accum, .term => t.mode = .done
    | .done, _ => t.mode = .done

/-- R129, which the spec derives from R122: after any bytes scanned from IDLE, a frame in progress is the last header and the data bytes since it, with no
status byte since; a completed frame has the terminator in addition. -/
def Obligations.FrameInProgress : Prop :=
  ∀ (bs : List Byte) (s t : State), s.mode = .idle → execAll (bs.map decodeByte) s = .next t →
    (t.mode = .accum → ∃ before since, bs = before ++ 0xF0#8 :: since ∧
      (∀ b ∈ since, classify b = .data ∨ classify b = .rt) ∧
      t.frameBytes = 0xF0#8 :: since.filter fun b => classify b == .data) ∧
    (t.mode = .done → ∃ before since rest, bs = before ++ 0xF0#8 :: since ++ 0xF7#8 :: rest ∧
      (∀ b ∈ since, classify b = .data ∨ classify b = .rt) ∧
      t.frameBytes = 0xF0#8 :: (since.filter fun b => classify b == .data) ++ [0xF7#8])

/-- The frame of the byte actions: only `len`, `done` and the one stored byte change. -/
def Obligations.ByteActionsFrame : Prop :=
  ∀ (i : Instr) (s t : State), i.isCommand = false → exec i s = .next t →
    (t.life = s.life ∧ t.fault = s.fault ∧ t.start = s.start ∧ t.end_ = s.end_ ∧ t.cur = s.cur ∧ t.lane = s.lane ∧
      t.inbox = s.inbox ∧ t.reply = s.reply) ∧
    (∀ j, t.slotAt j = s.slotAt j) ∧
    (i ≠ .term → t.done = s.done) ∧
    (i = .hdr → ∀ j, j ≠ 0 → t.fbufAt j = s.fbufAt j) ∧
    ((i = .term ∨ ∃ b, i = .data b) → ∀ j, j ≠ s.len → t.fbufAt j = s.fbufAt j) ∧
    ((∃ b, i = .stat b) → ∀ j, t.fbufAt j = s.fbufAt j) ∧
    ((∃ b, i = .rt b) → t = s)

/-- R52: lane `k` is the logical shift by `8 * k` masked to 8 bits, and the four lanes are the payload. -/
def Obligations.LanesLowByteFirst : Prop :=
  (∀ (p : Payload) (k : BitVec 2), laneByte p k = ((p >>> (8 * k.toNat)) &&& 0xFF#32).setWidth 8) ∧
  (∀ p : Payload, laneByte p 3 ++ laneByte p 2 ++ laneByte p 1 ++ laneByte p 0 = p) ∧
  laneByte 0xF7060504 3 = 0xF7

/-- Scanning a lane is executing the byte instruction its byte decodes to, whatever the lane (R121). -/
def Obligations.LaneScanRunsByteAction : Prop :=
  ∀ (k : BitVec 2) (s : State),
    scanLane usable k s = exec (decodeByte (laneByte s.cur k)) { s with lane := k }

/-! ## The pass -/

/-- R15, which the spec derives from R12 and R140: the extractor sees the bytes of the queued events, in queue order, lane
0 first, and no other. A pass is the byte instructions of that stream, decoded and executed one after another from `len`
and `done` zero; the reply and the working state at the end of the drain are those they leave. -/
def Obligations.PassRunsStreamBytes : Prop :=
  ∀ s : State, s.life = .ready → InRange usable s →
    ∃ t u v,
      execAll ((streamOf (s.contents usable)).map decodeByte) { s with len := 0, done := false } = .next u ∧
      drain usable (ringSize usable) { s with len := 0, done := false } = .next v ∧
      v = { u with start := s.end_, cur := v.cur, lane := v.lane } ∧
      exec .fxExtract s = .next t ∧
      t.reply = (if u.done then .result true u.len u.frameBytes else .result false 0 [])

/-- R130, which the spec derives from R122 to R127 and R140: `FX_EXTRACT` completes and returns the frame of the stream that ends first, and "not found" when there is
none; the frame's start is unique. -/
def Obligations.ExtractReturnsFirstFrame : Prop :=
  (∀ s : State, s.life = .ready → InRange usable s →
    ∃ t, exec .fxExtract s = .next t ∧
      (∀ f, FirstFrame (streamOf (s.contents usable)) f → t.reply = .result true f.length f) ∧
      (NoFrame (streamOf (s.contents usable)) → t.reply = .result false 0 [])) ∧
  (∀ bs : List Byte, NoFrame bs ∨ ∃ f, FirstFrame bs f) ∧
  (∀ (bs : List Byte) (i i' j : Nat), FrameAt bs i j → FrameAt bs i' j → i = i')

/-- R141: after `FX_EXTRACT` the queue is empty, found or not, and both indices are where `end` was. -/
def Obligations.ExtractEmptiesQueue : Prop :=
  ∀ s : State, s.life = .ready → InRange usable s →
    ∃ t, exec .fxExtract s = .next t ∧ t.start = s.end_ ∧ t.end_ = s.end_ ∧ t.contents usable = []

/-- The frame of `FX_EXTRACT`: it writes `start`, the working state and the reply; no slot, no status register, no
request changes. -/
def Obligations.ExtractFrame : Prop :=
  ∀ s t : State, exec .fxExtract s = .next t →
    t.life = s.life ∧ t.end_ = s.end_ ∧ t.inbox = s.inbox ∧ (s.life = .ready → t.fault = s.fault) ∧
    ∀ j, t.slotAt j = s.slotAt j

/-- The shape of the triple of R35, with `length` inside `LEN_W` bits. -/
def Obligations.ExtractResultShape : Prop :=
  ∀ s : State, s.life = .ready → InRange usable s →
    ∃ t found length frame, exec .fxExtract s = .next t ∧ t.reply = .result found length frame ∧
      frame.length = length ∧ length < 2 ^ Config.lenW usable ∧
      (found = false → length = 0 ∧ frame = []) ∧
      (found = true → 2 ≤ length ∧ length ≤ frameMax usable ∧
        frame.head? = some 0xF0#8 ∧ frame.getLast? = some 0xF7#8 ∧
        ∀ k b, 0 < k → k + 1 < length → frame[k]? = some b → b.toNat ≤ 0x7F)

/-- R143: two queues that differ only in timestamps give the same result. -/
def Obligations.TimestampsIgnored : Prop :=
  ∀ s s' : State, s.life = .ready → s'.life = .ready → InRange usable s → InRange usable s' →
    (s.contents usable).map RawEvent.payload = (s'.contents usable).map RawEvent.payload →
      ∃ t t', exec .fxExtract s = .next t ∧ exec .fxExtract s' = .next t' ∧ t.reply = t'.reply

/-- R145, which the spec derives from R121: two queues with the same byte stream give the same result, and have the same number of events. -/
def Obligations.CuttingIndependence : Prop :=
  ∀ s s' : State, s.life = .ready → s'.life = .ready → InRange usable s → InRange usable s' →
    streamOf (s.contents usable) = streamOf (s'.contents usable) →
      (∃ t t', exec .fxExtract s = .next t ∧ exec .fxExtract s' = .next t' ∧ t.reply = t'.reply) ∧
      (s.contents usable).length = (s'.contents usable).length

/-- Once a frame is complete no later byte can alter it, and everything behind it is lost (R146, R147). -/
def Obligations.CompleteFrameIsFixed : Prop :=
  ∀ (u v f : List Byte) (s : State), s.life = .ready → InRange usable s →
    FirstFrame u f → streamOf (s.contents usable) = u ++ v →
      ∃ t, exec .fxExtract s = .next t ∧ t.reply = .result true f.length f ∧ t.contents usable = []

/-- R148, which the spec derives from R25 and R122: no frame is longer than `4 * N` bytes, and one of exactly `4 * N` bytes that fills `N` events is returned
whole. -/
def Obligations.LongestFrame : Prop :=
  ∀ s : State, s.life = .ready → InRange usable s →
    (streamOf (s.contents usable)).length ≤ 4 * usable ∧
    ∃ t, exec .fxExtract s = .next t ∧
      (∀ length frame, t.reply = .result true length frame → length ≤ 4 * usable ∧ frame.length = length) ∧
      (∀ d, (s.contents usable).length = usable → (∀ b ∈ d, classify b = .data) →
        streamOf (s.contents usable) = 0xF0#8 :: d ++ [0xF7#8] →
          t.reply = .result true (4 * usable) (0xF0#8 :: d ++ [0xF7#8]))

/-- "Not found" is a normal result (R149, R150): no fault bit, length 0, for an empty queue, a queue with no header, and
any other with no complete frame. -/
def Obligations.NotFoundIsNormal : Prop :=
  ∀ s : State, s.life = .ready → InRange usable s →
    (s.contents usable = [] ∨ 0xF0#8 ∉ streamOf (s.contents usable) ∨ 0xF7#8 ∉ streamOf (s.contents usable) ∨
      NoFrame (streamOf (s.contents usable))) →
      ∃ t, exec .fxExtract s = .next t ∧ t.reply = .result false 0 [] ∧ t.fault = s.fault

/-- R151, which the spec derives from R107 and R140: the drain makes exactly `count` turns, and `count <= N`. -/
def Obligations.DrainMakesCountTurns : Prop :=
  ∀ (s : State) (turns : Nat), InRange usable s → s.len = 0 →
    s.count usable ≤ usable ∧ ((∃ t, drain usable turns s = .next t) ↔ s.count usable ≤ turns)

/-- R152, which the spec derives from R141 and R149: of two passes in a row with no write between, the second finds nothing.
`fault = 0` is the premise R161 asks of a claim about a command sequence. -/
def Obligations.SecondPassFindsNothing : Prop :=
  ∀ s : State, s.life = .ready → s.fault = 0b00#2 → InRange usable s →
    ∃ t u, exec .fxExtract s = .next t ∧ exec .fxExtract t = .next u ∧ u.reply = .result false 0 [] ∧ u.fault = 0b00#2

/-- R153, which the spec derives from R130: a well-formed frame behind anything that completes no frame, and before anything at all, is the result, its
bytes exactly. -/
def Obligations.FrameThenGarbage : Prop :=
  ∀ (g d h : List Byte) (s : State), s.life = .ready → InRange usable s →
    NoFrame g → (∀ b ∈ d, classify b = .data) →
    streamOf (s.contents usable) = g ++ (0xF0#8 :: d ++ [0xF7#8]) ++ h →
      ∃ t, exec .fxExtract s = .next t ∧ t.reply = .result true (d.length + 2) (0xF0#8 :: d ++ [0xF7#8])

/-- R154, which the spec derives from R125 and R130: a frame with a status byte before its terminator gives "not found"; followed by a well-formed frame it gives
that frame. -/
def Obligations.StrayStatusByte : Prop :=
  ∀ (d d' e h : List Byte) (x : Byte) (s : State), s.life = .ready → InRange usable s →
    classify x = .stat → (∀ b ∈ d, classify b = .data) → (∀ b ∈ d', classify b = .data) →
    (∀ b ∈ e, classify b = .data) →
    (streamOf (s.contents usable) = 0xF0#8 :: d ++ x :: d' ++ [0xF7#8] →
      ∃ t, exec .fxExtract s = .next t ∧ t.reply = .result false 0 []) ∧
    (streamOf (s.contents usable) = (0xF0#8 :: d ++ x :: d' ++ [0xF7#8]) ++ (0xF0#8 :: e ++ [0xF7#8]) ++ h →
      ∃ t, exec .fxExtract s = .next t ∧ t.reply = .result true (e.length + 2) (0xF0#8 :: e ++ [0xF7#8]))

/-- Nothing of the working state survives a pass (R34, R195): after one, the result of the next is that of the events
written since, alone. `fault = 0` is the premise R161 asks of a claim about a command sequence. -/
def Obligations.NothingSurvivesPass : Prop :=
  ∀ (s : State) (ws : List RawEvent), s.life = .ready → s.fault = 0b00#2 → InRange usable s → ws.length ≤ usable →
    ∃ t u, execAll (.fxExtract :: ws.map .rbWrite) s = .next t ∧ exec .fxExtract t = .next u ∧ u.fault = 0b00#2 ∧
      (∀ f, FirstFrame (streamOf ws) f → u.reply = .result true f.length f) ∧
      (NoFrame (streamOf ws) → u.reply = .result false 0 [])

/-! ## The whole machine -/

/-- The state after reset has the invariant. -/
def Obligations.ResetHasInvariant : Prop := Inv usable State.reset

/-- Every step keeps the invariant: registers inside their legal values, register files canonical and inside their index
spaces, every live slot written (R20, R24, R25). -/
def Obligations.StepKeepsInvariant : Prop :=
  ∀ s t : State, Inv usable s → step s = .next t → Inv usable t

/-- The block is never stuck (R177): from a state with the invariant, a step that executes a command, or hardware reset,
or nothing, answers a next state. -/
def Obligations.BlockNeverStops : Prop :=
  ∀ s : State, Inv usable s →
    (∀ code operand rest, s.inbox = .command code operand :: rest → ∃ i, decode (.cmd code operand) = .ok i) →
      ∃ t, step s = .next t

/-- The invariants of R25 between commands: `full` and `empty` in `count`, and never both. -/
def Obligations.FullAndEmptyByCount : Prop :=
  ∀ s : State, InRange usable s →
    s.count usable ≤ usable ∧
    (s.isFull usable = true ↔ s.count usable = usable) ∧ (s.isEmpty = true ↔ s.count usable = 0) ∧
    ¬ (s.isFull usable = true ∧ s.isEmpty = true)

/-- R40, which the spec derives from R24, R25 and R36: every command is a function of `(life, q, fault)` and its operand:
the index-level machine and the abstract one agree, command by command. That the indices are still in range after
`RB_FREE`, where R106 leaves them unspecified, is the model's choice (log 5). -/
def Obligations.CommandsRefineView : Prop :=
  ∀ (i : Instr) (s : State), i.isCommand = true → InRange usable s →
    ∃ t, exec i s = .next t ∧ InRange usable t ∧ (t.view usable, t.reply) = (s.view usable).exec usable i

/-- What the spec leaves unspecified is not observable (R36, R191): two states with the same view give the same
observations under every sequence of commands, whatever their indices, stale slots and working registers. `fault = 0` at
the start is the premise R161 asks of a claim about a command sequence; the same view gives it of both states. -/
def Obligations.UnspecifiedIsUnobservable : Prop :=
  ∀ (is : List Instr) (s s' : State), (∀ i ∈ is, i.isCommand = true) → s.fault = 0b00#2 →
    InRange usable s → InRange usable s' → s.view usable = s'.view usable →
      observations is s = observations is s' ∧ (observations is s).length = is.length
end

