-- ==== Sys2Proof/Laws/Cells.lean ====
section
/-!
SUPPORT. Register files: a read after a write, and that a write keeps the canonical form and the index space.
-/

namespace Sys2Proof.Machine

variable {α : Type}

theorem cellsGet_put_same (i : Nat) (v : α) (m : Cells α) : cellsGet i (cellsPut i v m) = some v := by
  induction m with
  | nil => simp [cellsPut, cellsGet]
  | cons p m ih =>
    obtain ⟨j, u⟩ := p
    by_cases h1 : i < j
    · simp [cellsPut, cellsGet, h1]
    · by_cases h2 : i = j
      · simp [cellsPut, cellsGet, h2]
      · simp [cellsPut, cellsGet, h1, h2, ih, Ne.symm h2]

theorem cellsGet_put_other {i j : Nat} (h : j ≠ i) (v : α) (m : Cells α) :
    cellsGet j (cellsPut i v m) = cellsGet j m := by
  induction m with
  | nil => simp [cellsPut, cellsGet, h.symm]
  | cons p m ih =>
    obtain ⟨k, u⟩ := p
    by_cases h1 : i < k
    · simp [cellsPut, cellsGet, h1, h.symm]
    · by_cases h2 : i = k
      · subst h2; simp [cellsPut, cellsGet, h.symm]
      · simp only [cellsPut, h1, h2, if_false, cellsGet, ih]

theorem cellsPut_mem {i : Nat} {v : α} {m : Cells α} {p : Nat × α} (h : p ∈ cellsPut i v m) : p = (i, v) ∨ p ∈ m := by
  induction m with
  | nil => simpa [cellsPut] using h
  | cons q m ih =>
    obtain ⟨j, u⟩ := q
    simp only [cellsPut] at h
    split at h
    · simpa using h
    · split at h
      · rcases List.mem_cons.1 h with h | h
        · exact .inl h
        · exact .inr (List.mem_cons_of_mem _ h)
      · rcases List.mem_cons.1 h with h | h
        · exact .inr (h ▸ List.mem_cons_self)
        · exact (ih h).imp_right (List.mem_cons_of_mem _)

/-- The canonical form, said of neighbours as Mathlib says it. -/
theorem Memory.wf_iff_pairwise (m : Cells α) : Memory.wf m = true ↔ m.Pairwise fun p q => p.1 < q.1 := by
  induction m with
  | nil => simp [Memory.wf]
  | cons p m ih =>
    cases m with
    | nil => simp [Memory.wf]
    | cons q m =>
      obtain ⟨i, u⟩ := p
      obtain ⟨j, v⟩ := q
      simp only [Memory.wf, Bool.and_eq_true, decide_eq_true_eq, ih]
      constructor
      · rintro ⟨h, hm⟩
        refine List.pairwise_cons.2 ⟨fun r hr => ?_, hm⟩
        rcases List.mem_cons.1 hr with rfl | hr
        · exact h
        · exact lt_trans h (List.rel_of_pairwise_cons hm hr)
      · intro h
        exact ⟨List.rel_of_pairwise_cons h List.mem_cons_self, (List.pairwise_cons.1 h).2⟩

/-- A write keeps the canonical form. -/
theorem Memory.wf_put (i : Nat) (v : α) {m : Cells α} (h : Memory.wf m = true) : Memory.wf (cellsPut i v m) = true := by
  rw [Memory.wf_iff_pairwise] at h ⊢
  induction m with
  | nil => simp [cellsPut]
  | cons p m ih =>
    obtain ⟨j, u⟩ := p
    obtain ⟨hj, hm⟩ := List.pairwise_cons.1 h
    simp only [cellsPut]
    split
    · next hij =>
      refine List.pairwise_cons.2 ⟨fun r hr => ?_, h⟩
      rcases List.mem_cons.1 hr with rfl | hr
      · exact hij
      · exact lt_trans hij (hj r hr)
    · next hij =>
      split
      · next he => subst he; exact List.pairwise_cons.2 ⟨hj, hm⟩
      · next he =>
        refine List.pairwise_cons.2 ⟨fun r hr => ?_, ih hm⟩
        rcases cellsPut_mem hr with rfl | hr
        · exact lt_of_le_of_ne (not_lt.1 hij) (Ne.symm he)
        · exact hj r hr

/-- A write inside an index space keeps the file inside it. -/
theorem cellsPut_lt {i b : Nat} {v : α} {m : Cells α} (hi : i < b) (h : ∀ p ∈ m, p.1 < b) :
    ∀ p ∈ cellsPut i v m, p.1 < b := by
  intro p hp
  rcases cellsPut_mem hp with rfl | hp
  · exact hi
  · exact h p hp

/-! The two register files of the state. -/

theorem State.slotAt_putSlot (s : State) (i j : Nat) (ev : RawEvent) :
    (s.putSlot i ev).slotAt j = if j = i then ev else s.slotAt j := by
  by_cases h : j = i
  · subst h; simp [State.slotAt, State.putSlot, cellsGet_put_same]
  · simp [State.slotAt, State.putSlot, cellsGet_put_other h, h]

theorem State.fbufAt_putByte (s : State) (i j : Nat) (b : Byte) :
    (s.putByte i b).fbufAt j = if j = i then b else s.fbufAt j := by
  by_cases h : j = i
  · subst h; simp [State.fbufAt, State.putByte, cellsGet_put_same]
  · simp [State.fbufAt, State.putByte, cellsGet_put_other h, h]

/-- `slot[i]` depends on the slots and their era alone. -/
theorem State.slotAt_congr {s t : State} (h1 : t.slots = s.slots) (h2 : t.ringEra = s.ringEra) (i : Nat) :
    t.slotAt i = s.slotAt i := by
  simp only [State.slotAt, h1, h2]

/-- `fbuf[i]` depends on the frame buffer and its era alone. -/
theorem State.fbufAt_congr {s t : State} (h1 : t.fbuf = s.fbuf) (h2 : t.passEra = s.passEra) (i : Nat) :
    t.fbufAt i = s.fbufAt i := by
  simp only [State.fbufAt, h1, h2]

end Sys2Proof.Machine
end

