-- ==== Sys2Proof/Laws/State.lean ====
section
/-!
SUPPORT. For each update of the state, what it leaves in each field. All true by unfolding the update; tagged simp, so
that no later proof unfolds a record.
-/

namespace Sys2Proof.Machine

section SetLife

variable (s : State) (l : Life)

@[simp] theorem State.setLife_life : (s.setLife l).life = l := rfl
@[simp] theorem State.setLife_fault : (s.setLife l).fault = s.fault := rfl
@[simp] theorem State.setLife_start : (s.setLife l).start = s.start := rfl
@[simp] theorem State.setLife_end_ : (s.setLife l).end_ = s.end_ := rfl
@[simp] theorem State.setLife_slots : (s.setLife l).slots = s.slots := rfl
@[simp] theorem State.setLife_len : (s.setLife l).len = s.len := rfl
@[simp] theorem State.setLife_fbuf : (s.setLife l).fbuf = s.fbuf := rfl
@[simp] theorem State.setLife_done : (s.setLife l).done = s.done := rfl
@[simp] theorem State.setLife_cur : (s.setLife l).cur = s.cur := rfl
@[simp] theorem State.setLife_lane : (s.setLife l).lane = s.lane := rfl
@[simp] theorem State.setLife_inbox : (s.setLife l).inbox = s.inbox := rfl
@[simp] theorem State.setLife_reply : (s.setLife l).reply = s.reply := rfl
@[simp] theorem State.setLife_ringEra : (s.setLife l).ringEra = s.ringEra := rfl
@[simp] theorem State.setLife_passEra : (s.setLife l).passEra = s.passEra := rfl

end SetLife

section SetStart

variable (s : State) (i : Nat)

@[simp] theorem State.setStart_life : (s.setStart i).life = s.life := rfl
@[simp] theorem State.setStart_fault : (s.setStart i).fault = s.fault := rfl
@[simp] theorem State.setStart_start : (s.setStart i).start = i := rfl
@[simp] theorem State.setStart_end_ : (s.setStart i).end_ = s.end_ := rfl
@[simp] theorem State.setStart_slots : (s.setStart i).slots = s.slots := rfl
@[simp] theorem State.setStart_len : (s.setStart i).len = s.len := rfl
@[simp] theorem State.setStart_fbuf : (s.setStart i).fbuf = s.fbuf := rfl
@[simp] theorem State.setStart_done : (s.setStart i).done = s.done := rfl
@[simp] theorem State.setStart_cur : (s.setStart i).cur = s.cur := rfl
@[simp] theorem State.setStart_lane : (s.setStart i).lane = s.lane := rfl
@[simp] theorem State.setStart_inbox : (s.setStart i).inbox = s.inbox := rfl
@[simp] theorem State.setStart_reply : (s.setStart i).reply = s.reply := rfl
@[simp] theorem State.setStart_ringEra : (s.setStart i).ringEra = s.ringEra := rfl
@[simp] theorem State.setStart_passEra : (s.setStart i).passEra = s.passEra := rfl

end SetStart

section SetEnd

variable (s : State) (i : Nat)

@[simp] theorem State.setEnd_life : (s.setEnd i).life = s.life := rfl
@[simp] theorem State.setEnd_fault : (s.setEnd i).fault = s.fault := rfl
@[simp] theorem State.setEnd_start : (s.setEnd i).start = s.start := rfl
@[simp] theorem State.setEnd_end_ : (s.setEnd i).end_ = i := rfl
@[simp] theorem State.setEnd_slots : (s.setEnd i).slots = s.slots := rfl
@[simp] theorem State.setEnd_len : (s.setEnd i).len = s.len := rfl
@[simp] theorem State.setEnd_fbuf : (s.setEnd i).fbuf = s.fbuf := rfl
@[simp] theorem State.setEnd_done : (s.setEnd i).done = s.done := rfl
@[simp] theorem State.setEnd_cur : (s.setEnd i).cur = s.cur := rfl
@[simp] theorem State.setEnd_lane : (s.setEnd i).lane = s.lane := rfl
@[simp] theorem State.setEnd_inbox : (s.setEnd i).inbox = s.inbox := rfl
@[simp] theorem State.setEnd_reply : (s.setEnd i).reply = s.reply := rfl
@[simp] theorem State.setEnd_ringEra : (s.setEnd i).ringEra = s.ringEra := rfl
@[simp] theorem State.setEnd_passEra : (s.setEnd i).passEra = s.passEra := rfl

end SetEnd

section PutSlot

variable (s : State) (i : Nat) (ev : RawEvent)

@[simp] theorem State.putSlot_life : (s.putSlot i ev).life = s.life := rfl
@[simp] theorem State.putSlot_fault : (s.putSlot i ev).fault = s.fault := rfl
@[simp] theorem State.putSlot_start : (s.putSlot i ev).start = s.start := rfl
@[simp] theorem State.putSlot_end_ : (s.putSlot i ev).end_ = s.end_ := rfl
@[simp] theorem State.putSlot_slots : (s.putSlot i ev).slots = cellsPut i ev s.slots := rfl
@[simp] theorem State.putSlot_len : (s.putSlot i ev).len = s.len := rfl
@[simp] theorem State.putSlot_fbuf : (s.putSlot i ev).fbuf = s.fbuf := rfl
@[simp] theorem State.putSlot_done : (s.putSlot i ev).done = s.done := rfl
@[simp] theorem State.putSlot_cur : (s.putSlot i ev).cur = s.cur := rfl
@[simp] theorem State.putSlot_lane : (s.putSlot i ev).lane = s.lane := rfl
@[simp] theorem State.putSlot_inbox : (s.putSlot i ev).inbox = s.inbox := rfl
@[simp] theorem State.putSlot_reply : (s.putSlot i ev).reply = s.reply := rfl
@[simp] theorem State.putSlot_ringEra : (s.putSlot i ev).ringEra = s.ringEra := rfl
@[simp] theorem State.putSlot_passEra : (s.putSlot i ev).passEra = s.passEra := rfl

end PutSlot

section SetLen

variable (s : State) (k : Nat)

@[simp] theorem State.setLen_life : (s.setLen k).life = s.life := rfl
@[simp] theorem State.setLen_fault : (s.setLen k).fault = s.fault := rfl
@[simp] theorem State.setLen_start : (s.setLen k).start = s.start := rfl
@[simp] theorem State.setLen_end_ : (s.setLen k).end_ = s.end_ := rfl
@[simp] theorem State.setLen_slots : (s.setLen k).slots = s.slots := rfl
@[simp] theorem State.setLen_len : (s.setLen k).len = k := rfl
@[simp] theorem State.setLen_fbuf : (s.setLen k).fbuf = s.fbuf := rfl
@[simp] theorem State.setLen_done : (s.setLen k).done = s.done := rfl
@[simp] theorem State.setLen_cur : (s.setLen k).cur = s.cur := rfl
@[simp] theorem State.setLen_lane : (s.setLen k).lane = s.lane := rfl
@[simp] theorem State.setLen_inbox : (s.setLen k).inbox = s.inbox := rfl
@[simp] theorem State.setLen_reply : (s.setLen k).reply = s.reply := rfl
@[simp] theorem State.setLen_ringEra : (s.setLen k).ringEra = s.ringEra := rfl
@[simp] theorem State.setLen_passEra : (s.setLen k).passEra = s.passEra := rfl

end SetLen

section PutByte

variable (s : State) (i : Nat) (b : Byte)

@[simp] theorem State.putByte_life : (s.putByte i b).life = s.life := rfl
@[simp] theorem State.putByte_fault : (s.putByte i b).fault = s.fault := rfl
@[simp] theorem State.putByte_start : (s.putByte i b).start = s.start := rfl
@[simp] theorem State.putByte_end_ : (s.putByte i b).end_ = s.end_ := rfl
@[simp] theorem State.putByte_slots : (s.putByte i b).slots = s.slots := rfl
@[simp] theorem State.putByte_len : (s.putByte i b).len = s.len := rfl
@[simp] theorem State.putByte_fbuf : (s.putByte i b).fbuf = cellsPut i b s.fbuf := rfl
@[simp] theorem State.putByte_done : (s.putByte i b).done = s.done := rfl
@[simp] theorem State.putByte_cur : (s.putByte i b).cur = s.cur := rfl
@[simp] theorem State.putByte_lane : (s.putByte i b).lane = s.lane := rfl
@[simp] theorem State.putByte_inbox : (s.putByte i b).inbox = s.inbox := rfl
@[simp] theorem State.putByte_reply : (s.putByte i b).reply = s.reply := rfl
@[simp] theorem State.putByte_ringEra : (s.putByte i b).ringEra = s.ringEra := rfl
@[simp] theorem State.putByte_passEra : (s.putByte i b).passEra = s.passEra := rfl

end PutByte

section SetDone

variable (s : State) (d : Bool)

@[simp] theorem State.setDone_life : (s.setDone d).life = s.life := rfl
@[simp] theorem State.setDone_fault : (s.setDone d).fault = s.fault := rfl
@[simp] theorem State.setDone_start : (s.setDone d).start = s.start := rfl
@[simp] theorem State.setDone_end_ : (s.setDone d).end_ = s.end_ := rfl
@[simp] theorem State.setDone_slots : (s.setDone d).slots = s.slots := rfl
@[simp] theorem State.setDone_len : (s.setDone d).len = s.len := rfl
@[simp] theorem State.setDone_fbuf : (s.setDone d).fbuf = s.fbuf := rfl
@[simp] theorem State.setDone_done : (s.setDone d).done = d := rfl
@[simp] theorem State.setDone_cur : (s.setDone d).cur = s.cur := rfl
@[simp] theorem State.setDone_lane : (s.setDone d).lane = s.lane := rfl
@[simp] theorem State.setDone_inbox : (s.setDone d).inbox = s.inbox := rfl
@[simp] theorem State.setDone_reply : (s.setDone d).reply = s.reply := rfl
@[simp] theorem State.setDone_ringEra : (s.setDone d).ringEra = s.ringEra := rfl
@[simp] theorem State.setDone_passEra : (s.setDone d).passEra = s.passEra := rfl

end SetDone

section SetCur

variable (s : State) (p : Payload)

@[simp] theorem State.setCur_life : (s.setCur p).life = s.life := rfl
@[simp] theorem State.setCur_fault : (s.setCur p).fault = s.fault := rfl
@[simp] theorem State.setCur_start : (s.setCur p).start = s.start := rfl
@[simp] theorem State.setCur_end_ : (s.setCur p).end_ = s.end_ := rfl
@[simp] theorem State.setCur_slots : (s.setCur p).slots = s.slots := rfl
@[simp] theorem State.setCur_len : (s.setCur p).len = s.len := rfl
@[simp] theorem State.setCur_fbuf : (s.setCur p).fbuf = s.fbuf := rfl
@[simp] theorem State.setCur_done : (s.setCur p).done = s.done := rfl
@[simp] theorem State.setCur_cur : (s.setCur p).cur = p := rfl
@[simp] theorem State.setCur_lane : (s.setCur p).lane = s.lane := rfl
@[simp] theorem State.setCur_inbox : (s.setCur p).inbox = s.inbox := rfl
@[simp] theorem State.setCur_reply : (s.setCur p).reply = s.reply := rfl
@[simp] theorem State.setCur_ringEra : (s.setCur p).ringEra = s.ringEra := rfl
@[simp] theorem State.setCur_passEra : (s.setCur p).passEra = s.passEra := rfl

end SetCur

section SetLane

variable (s : State) (k : BitVec 2)

@[simp] theorem State.setLane_life : (s.setLane k).life = s.life := rfl
@[simp] theorem State.setLane_fault : (s.setLane k).fault = s.fault := rfl
@[simp] theorem State.setLane_start : (s.setLane k).start = s.start := rfl
@[simp] theorem State.setLane_end_ : (s.setLane k).end_ = s.end_ := rfl
@[simp] theorem State.setLane_slots : (s.setLane k).slots = s.slots := rfl
@[simp] theorem State.setLane_len : (s.setLane k).len = s.len := rfl
@[simp] theorem State.setLane_fbuf : (s.setLane k).fbuf = s.fbuf := rfl
@[simp] theorem State.setLane_done : (s.setLane k).done = s.done := rfl
@[simp] theorem State.setLane_cur : (s.setLane k).cur = s.cur := rfl
@[simp] theorem State.setLane_lane : (s.setLane k).lane = k := rfl
@[simp] theorem State.setLane_inbox : (s.setLane k).inbox = s.inbox := rfl
@[simp] theorem State.setLane_reply : (s.setLane k).reply = s.reply := rfl
@[simp] theorem State.setLane_ringEra : (s.setLane k).ringEra = s.ringEra := rfl
@[simp] theorem State.setLane_passEra : (s.setLane k).passEra = s.passEra := rfl

end SetLane

section Answer

variable (s : State) (r : Reply)

@[simp] theorem State.answer_life : (s.answer r).life = s.life := rfl
@[simp] theorem State.answer_fault : (s.answer r).fault = s.fault := rfl
@[simp] theorem State.answer_start : (s.answer r).start = s.start := rfl
@[simp] theorem State.answer_end_ : (s.answer r).end_ = s.end_ := rfl
@[simp] theorem State.answer_slots : (s.answer r).slots = s.slots := rfl
@[simp] theorem State.answer_len : (s.answer r).len = s.len := rfl
@[simp] theorem State.answer_fbuf : (s.answer r).fbuf = s.fbuf := rfl
@[simp] theorem State.answer_done : (s.answer r).done = s.done := rfl
@[simp] theorem State.answer_cur : (s.answer r).cur = s.cur := rfl
@[simp] theorem State.answer_lane : (s.answer r).lane = s.lane := rfl
@[simp] theorem State.answer_inbox : (s.answer r).inbox = s.inbox := rfl
@[simp] theorem State.answer_reply : (s.answer r).reply = r := rfl
@[simp] theorem State.answer_ringEra : (s.answer r).ringEra = s.ringEra := rfl
@[simp] theorem State.answer_passEra : (s.answer r).passEra = s.passEra := rfl

end Answer

section Raise

variable (s : State) (c : FaultCode)

@[simp] theorem State.raise_life : (s.raise c).life = s.life := rfl
@[simp] theorem State.raise_fault : (s.raise c).fault = s.fault ||| c.bit := rfl
@[simp] theorem State.raise_start : (s.raise c).start = s.start := rfl
@[simp] theorem State.raise_end_ : (s.raise c).end_ = s.end_ := rfl
@[simp] theorem State.raise_slots : (s.raise c).slots = s.slots := rfl
@[simp] theorem State.raise_len : (s.raise c).len = s.len := rfl
@[simp] theorem State.raise_fbuf : (s.raise c).fbuf = s.fbuf := rfl
@[simp] theorem State.raise_done : (s.raise c).done = s.done := rfl
@[simp] theorem State.raise_cur : (s.raise c).cur = s.cur := rfl
@[simp] theorem State.raise_lane : (s.raise c).lane = s.lane := rfl
@[simp] theorem State.raise_inbox : (s.raise c).inbox = s.inbox := rfl
@[simp] theorem State.raise_reply : (s.raise c).reply = .fault c := rfl
@[simp] theorem State.raise_ringEra : (s.raise c).ringEra = s.ringEra := rfl
@[simp] theorem State.raise_passEra : (s.raise c).passEra = s.passEra := rfl

end Raise

section ClearFault

variable (s : State)

@[simp] theorem State.clearFault_life : s.clearFault.life = s.life := rfl
@[simp] theorem State.clearFault_fault : s.clearFault.fault = 0 := rfl
@[simp] theorem State.clearFault_start : s.clearFault.start = s.start := rfl
@[simp] theorem State.clearFault_end_ : s.clearFault.end_ = s.end_ := rfl
@[simp] theorem State.clearFault_slots : s.clearFault.slots = s.slots := rfl
@[simp] theorem State.clearFault_len : s.clearFault.len = s.len := rfl
@[simp] theorem State.clearFault_fbuf : s.clearFault.fbuf = s.fbuf := rfl
@[simp] theorem State.clearFault_done : s.clearFault.done = s.done := rfl
@[simp] theorem State.clearFault_cur : s.clearFault.cur = s.cur := rfl
@[simp] theorem State.clearFault_lane : s.clearFault.lane = s.lane := rfl
@[simp] theorem State.clearFault_inbox : s.clearFault.inbox = s.inbox := rfl
@[simp] theorem State.clearFault_reply : s.clearFault.reply = s.reply := rfl
@[simp] theorem State.clearFault_ringEra : s.clearFault.ringEra = s.ringEra := rfl
@[simp] theorem State.clearFault_passEra : s.clearFault.passEra = s.passEra := rfl

end ClearFault

section Take

variable (s : State) (rest : List Request)

@[simp] theorem State.take_life : (s.take rest).life = s.life := rfl
@[simp] theorem State.take_fault : (s.take rest).fault = s.fault := rfl
@[simp] theorem State.take_start : (s.take rest).start = s.start := rfl
@[simp] theorem State.take_end_ : (s.take rest).end_ = s.end_ := rfl
@[simp] theorem State.take_slots : (s.take rest).slots = s.slots := rfl
@[simp] theorem State.take_len : (s.take rest).len = s.len := rfl
@[simp] theorem State.take_fbuf : (s.take rest).fbuf = s.fbuf := rfl
@[simp] theorem State.take_done : (s.take rest).done = s.done := rfl
@[simp] theorem State.take_cur : (s.take rest).cur = s.cur := rfl
@[simp] theorem State.take_lane : (s.take rest).lane = s.lane := rfl
@[simp] theorem State.take_inbox : (s.take rest).inbox = rest := rfl
@[simp] theorem State.take_reply : (s.take rest).reply = s.reply := rfl
@[simp] theorem State.take_ringEra : (s.take rest).ringEra = s.ringEra := rfl
@[simp] theorem State.take_passEra : (s.take rest).passEra = s.passEra := rfl

end Take

section Issue

variable (s : State) (code : BitVec 3) (operand : EventBits)

@[simp] theorem State.issue_life : (s.issue code operand).life = s.life := rfl
@[simp] theorem State.issue_fault : (s.issue code operand).fault = s.fault := rfl
@[simp] theorem State.issue_start : (s.issue code operand).start = s.start := rfl
@[simp] theorem State.issue_end_ : (s.issue code operand).end_ = s.end_ := rfl
@[simp] theorem State.issue_slots : (s.issue code operand).slots = s.slots := rfl
@[simp] theorem State.issue_len : (s.issue code operand).len = s.len := rfl
@[simp] theorem State.issue_fbuf : (s.issue code operand).fbuf = s.fbuf := rfl
@[simp] theorem State.issue_done : (s.issue code operand).done = s.done := rfl
@[simp] theorem State.issue_cur : (s.issue code operand).cur = s.cur := rfl
@[simp] theorem State.issue_lane : (s.issue code operand).lane = s.lane := rfl
@[simp] theorem State.issue_inbox : (s.issue code operand).inbox = .command code operand :: s.inbox := rfl
@[simp] theorem State.issue_reply : (s.issue code operand).reply = s.reply := rfl
@[simp] theorem State.issue_ringEra : (s.issue code operand).ringEra = s.ringEra := rfl
@[simp] theorem State.issue_passEra : (s.issue code operand).passEra = s.passEra := rfl

end Issue

section QueueByte

variable (s : State) (b : Byte)

@[simp] theorem State.queueByte_life : (s.queueByte b).life = .ready := rfl
@[simp] theorem State.queueByte_fault : (s.queueByte b).fault = s.fault := rfl
@[simp] theorem State.queueByte_start : (s.queueByte b).start = 0 := rfl
@[simp] theorem State.queueByte_end_ : (s.queueByte b).end_ = 1 := rfl
@[simp] theorem State.queueByte_slots : (s.queueByte b).slots = cellsPut 0 ⟨0xF8F8F8#24 ++ b, 0⟩ s.slots := rfl
@[simp] theorem State.queueByte_len : (s.queueByte b).len = s.len := rfl
@[simp] theorem State.queueByte_fbuf : (s.queueByte b).fbuf = s.fbuf := rfl
@[simp] theorem State.queueByte_done : (s.queueByte b).done = s.done := rfl
@[simp] theorem State.queueByte_cur : (s.queueByte b).cur = s.cur := rfl
@[simp] theorem State.queueByte_lane : (s.queueByte b).lane = s.lane := rfl
@[simp] theorem State.queueByte_inbox : (s.queueByte b).inbox = s.inbox := rfl
@[simp] theorem State.queueByte_reply : (s.queueByte b).reply = s.reply := rfl
@[simp] theorem State.queueByte_ringEra : (s.queueByte b).ringEra = s.ringEra := rfl
@[simp] theorem State.queueByte_passEra : (s.queueByte b).passEra = s.passEra := rfl

end QueueByte

section DropRing

variable (s : State) (n : Nat)

@[simp] theorem State.dropRing_life : (s.dropRing n).life = s.life := rfl
@[simp] theorem State.dropRing_fault : (s.dropRing n).fault = s.fault := rfl
@[simp] theorem State.dropRing_start : (s.dropRing n).start = Config.freeStart (s.ringEra + 1) % Config.ringSize n := rfl
@[simp] theorem State.dropRing_end_ : (s.dropRing n).end_ = Config.freeEnd (s.ringEra + 1) % Config.ringSize n := rfl
@[simp] theorem State.dropRing_slots : (s.dropRing n).slots = [] := rfl
@[simp] theorem State.dropRing_len : (s.dropRing n).len = s.len := rfl
@[simp] theorem State.dropRing_fbuf : (s.dropRing n).fbuf = s.fbuf := rfl
@[simp] theorem State.dropRing_done : (s.dropRing n).done = s.done := rfl
@[simp] theorem State.dropRing_cur : (s.dropRing n).cur = s.cur := rfl
@[simp] theorem State.dropRing_lane : (s.dropRing n).lane = s.lane := rfl
@[simp] theorem State.dropRing_inbox : (s.dropRing n).inbox = s.inbox := rfl
@[simp] theorem State.dropRing_reply : (s.dropRing n).reply = s.reply := rfl
@[simp] theorem State.dropRing_ringEra : (s.dropRing n).ringEra = s.ringEra + 1 := rfl
@[simp] theorem State.dropRing_passEra : (s.dropRing n).passEra = s.passEra := rfl

end DropRing

section DropPass

variable (s : State) (n : Nat)

@[simp] theorem State.dropPass_life : (s.dropPass n).life = s.life := rfl
@[simp] theorem State.dropPass_fault : (s.dropPass n).fault = s.fault := rfl
@[simp] theorem State.dropPass_start : (s.dropPass n).start = s.start := rfl
@[simp] theorem State.dropPass_end_ : (s.dropPass n).end_ = s.end_ := rfl
@[simp] theorem State.dropPass_slots : (s.dropPass n).slots = s.slots := rfl
@[simp] theorem State.dropPass_len : (s.dropPass n).len = Config.freeLen (s.passEra + 1) % (Config.frameMax n + 1) := rfl
@[simp] theorem State.dropPass_fbuf : (s.dropPass n).fbuf = [] := rfl
@[simp] theorem State.dropPass_done : (s.dropPass n).done = Config.freeDone (s.passEra + 1) := rfl
@[simp] theorem State.dropPass_cur : (s.dropPass n).cur = Config.freeCur (s.passEra + 1) := rfl
@[simp] theorem State.dropPass_lane : (s.dropPass n).lane = Config.freeLane (s.passEra + 1) := rfl
@[simp] theorem State.dropPass_inbox : (s.dropPass n).inbox = s.inbox := rfl
@[simp] theorem State.dropPass_reply : (s.dropPass n).reply = s.reply := rfl
@[simp] theorem State.dropPass_ringEra : (s.dropPass n).ringEra = s.ringEra := rfl
@[simp] theorem State.dropPass_passEra : (s.dropPass n).passEra = s.passEra + 1 := rfl

end DropPass

end Sys2Proof.Machine
end

