-- ==== Sys2Proof/Laws/Ops.lean ====
section
/-!
SUPPORT. One law per shared operation: what it answers.
-/

namespace Sys2Proof.Machine

open Sys2Proof.Config (ringSize frameMax)

@[simp] theorem andThen_next (s : State) (k : State → Out) : andThen (.next s) k = k s := rfl

@[simp] theorem andThen_fault (r : Fault) (k : State → Out) : andThen (.fault r) k = .fault r := rfl

@[simp] theorem andThen_refused (r : Refusal) (k : State → Out) : andThen (.refused r) k = .refused r := rfl

theorem andThen_assoc (o : Out) (k l : State → Out) : andThen (andThen o k) l = andThen o fun s => andThen (k s) l := by
  cases o <;> rfl

/-- A sequence answers a next state exactly when both of its parts do. -/
theorem andThen_eq_next {o : Out} {k : State → Out} {t : State} :
    andThen o k = .next t ↔ ∃ s, o = .next s ∧ k s = .next t := by
  cases o <;> simp [andThen]

theorem whenLife_same {l : Life} {s : State} (h : s.life = l) (run : Out) : whenLife l s run = run := by
  simp [whenLife, h]

theorem whenLife_other {l : Life} {s : State} (h : s.life ≠ l) (run : Out) :
    whenLife l s run = .next (s.raise .notReady) := by
  simp [whenLife, h]

/-- The guard answers a next state by running, or by raising `NOT_READY`. -/
theorem whenLife_eq_next {l : Life} {s t : State} {run : Out} :
    whenLife l s run = .next t ↔ (s.life = l ∧ run = .next t) ∨ (s.life ≠ l ∧ t = s.raise .notReady) := by
  by_cases h : s.life = l
  · simp [whenLife, h]
  · simp only [whenLife, h, if_false, false_and, false_or, ne_eq, not_false_eq_true, true_and, Host.Outcome.next.injEq]
    exact eq_comm

theorem takeOldest_inRange {n : Nat} {s : State} (h : s.start < ringSize n) (k : RawEvent → State → Out) :
    takeOldest n s k = k (s.slotAt s.start) (s.setStart (nextIndex n s.start)) := by
  simp [takeOldest, slotRead, h]

theorem takeOldest_eq_next {n : Nat} {s t : State} {k : RawEvent → State → Out} :
    takeOldest n s k = .next t ↔
      s.start < ringSize n ∧ k (s.slotAt s.start) (s.setStart (nextIndex n s.start)) = .next t := by
  by_cases h : s.start < ringSize n <;> simp [takeOldest, slotRead, h]

theorem putNewest_inRange {n : Nat} {s : State} (h : s.end_ < ringSize n) (ev : RawEvent) (k : State → Out) :
    putNewest n ev s k = k ((s.putSlot s.end_ ev).setEnd (nextIndex n s.end_)) := by
  simp [putNewest, slotWrite, h]

theorem putNewest_eq_next {n : Nat} {s t : State} {ev : RawEvent} {k : State → Out} :
    putNewest n ev s k = .next t ↔
      s.end_ < ringSize n ∧ k ((s.putSlot s.end_ ev).setEnd (nextIndex n s.end_)) = .next t := by
  by_cases h : s.end_ < ringSize n <;> simp [putNewest, slotWrite, h]

theorem fbufWrite_inRange {n i : Nat} {s : State} (h : i < frameMax n) (b : Byte) (k : State → Out) :
    fbufWrite n i b s k = k (s.putByte i b) := by
  simp [fbufWrite, h]

theorem fbufWrite_eq_next {n i : Nat} {s t : State} {b : Byte} {k : State → Out} :
    fbufWrite n i b s k = .next t ↔ i < frameMax n ∧ k (s.putByte i b) = .next t := by
  by_cases h : i < frameMax n <;> simp [fbufWrite, h]

theorem pushByte_inRange {n : Nat} {s : State} (h : s.len < frameMax n) (b : Byte) (k : State → Out) :
    pushByte n b s k = k ((s.putByte s.len b).setLen (s.len + 1)) := by
  simp [pushByte, fbufWrite, h]

theorem pushByte_eq_next {n : Nat} {s t : State} {b : Byte} {k : State → Out} :
    pushByte n b s k = .next t ↔ s.len < frameMax n ∧ k ((s.putByte s.len b).setLen (s.len + 1)) = .next t := by
  by_cases h : s.len < frameMax n <;> simp [pushByte, fbufWrite, h]

/-! Modes. -/

theorem State.mode_done {s : State} : s.mode = .done ↔ s.done = true := by
  by_cases hd : s.done <;> by_cases hl : s.len = 0 <;> simp [State.mode, hd, hl]

theorem State.mode_idle {s : State} : s.mode = .idle ↔ s.done = false ∧ s.len = 0 := by
  by_cases hd : s.done <;> by_cases hl : s.len = 0 <;> simp [State.mode, hd, hl]

theorem State.mode_accum {s : State} : s.mode = .accum ↔ s.done = false ∧ 0 < s.len := by
  by_cases hd : s.done <;> by_cases hl : s.len = 0 <;> simp [State.mode, hd, hl, Nat.pos_iff_ne_zero]

/-! Indices. -/

theorem nextIndex_lt (n i : Nat) : nextIndex n i < ringSize n := Nat.mod_lt _ (Nat.succ_pos n)

theorem nextIndex_eq {n i : Nat} (h : i < ringSize n) : nextIndex n i = if i = n then 0 else i + 1 := by
  unfold nextIndex ringSize at *
  split
  · next h' => subst h'; simp
  · exact Nat.mod_eq_of_lt (by omega)

end Sys2Proof.Machine
end

