-- ==== Sys2Proof/Laws/ByteActions.lean ====
section
/-!
SUPPORT. The byte actions: everything one can do, when it answers a next state, and that it makes the transition of the
scan that R122 tabulates.
-/

namespace Sys2Proof.Machine

open Sys2Proof.Config (ringSize frameMax)

/-- Everything a byte action can do (R122). -/
theorem byteAction_cases {n : Nat} {b : Byte} {s t : State} (h : byteAction n b s = .next t) :
    ((s.mode = .done ∨ classify b = .rt ∨ (s.mode = .idle ∧ classify b ≠ .hdr)) ∧ t = s) ∨
    (s.mode ≠ .done ∧ classify b = .hdr ∧ 0 < frameMax n ∧ t = (s.putByte 0 0xF0).setLen 1) ∨
    (s.mode = .accum ∧ classify b = .stat ∧ t = s.setLen 0) ∨
    (s.mode = .accum ∧ classify b = .term ∧ s.len < frameMax n ∧
      t = ((s.putByte s.len 0xF7).setLen (s.len + 1)).setDone true) ∨
    (s.mode = .accum ∧ classify b = .data ∧ s.len < frameMax n ∧ t = (s.putByte s.len b).setLen (s.len + 1)) := by
  cases hc : classify b <;> cases hm : s.mode <;>
    simp only [byteAction, rtAction, hdrAction, statAction, termAction, dataAction, hc, hm, fbufWrite_eq_next,
      pushByte_eq_next, Host.Outcome.next.injEq] at h <;>
    first
      | (subst h; simp)
      | (obtain ⟨h0, rfl⟩ := h; simp [h0])

/-- With room in the frame buffer a byte action always answers a next state. -/
theorem byteAction_completes {n : Nat} (b : Byte) {s : State} (h : s.len < frameMax n) :
    ∃ t, byteAction n b s = .next t := by
  have h0 : 0 < frameMax n := by omega
  cases hc : classify b <;> cases hm : s.mode <;>
    simp [byteAction, rtAction, hdrAction, statAction, termAction, dataAction, hc, hm, fbufWrite_inRange h0,
      pushByte_inRange h]

/-- A byte action writes the working registers `len`, `fbuf`, `done` and nothing else. -/
theorem byteAction_frame {n : Nat} {b : Byte} {s t : State} (h : byteAction n b s = .next t) :
    t = { s with len := t.len, fbuf := t.fbuf, done := t.done } := by
  rcases byteAction_cases h with ⟨_, rfl⟩ | ⟨_, _, _, rfl⟩ | ⟨_, _, rfl⟩ | ⟨_, _, _, rfl⟩ | ⟨_, _, _, rfl⟩ <;> rfl

theorem byteAction_len_le {n : Nat} {b : Byte} {s t : State} (h : byteAction n b s = .next t) : t.len ≤ s.len + 1 := by
  rcases byteAction_cases h with ⟨_, rfl⟩ | ⟨_, _, _, rfl⟩ | ⟨_, _, rfl⟩ | ⟨_, _, _, rfl⟩ | ⟨_, _, _, rfl⟩ <;> simp

/-- A byte action keeps the frame buffer canonical, inside its index space, and `len` inside its legal values. -/
theorem byteAction_keeps_fbuf {n : Nat} {b : Byte} {s t : State} (h : byteAction n b s = .next t)
    (hl : s.len ≤ frameMax n) (hw : Memory.wf s.fbuf = true) (hb : ∀ p ∈ s.fbuf, p.1 < frameMax n) :
    t.len ≤ frameMax n ∧ Memory.wf t.fbuf = true ∧ ∀ p ∈ t.fbuf, p.1 < frameMax n := by
  rcases byteAction_cases h with ⟨_, rfl⟩ | ⟨_, _, h0, rfl⟩ | ⟨_, _, rfl⟩ | ⟨_, _, h1, rfl⟩ | ⟨_, _, h1, rfl⟩
  · exact ⟨hl, hw, hb⟩
  · exact ⟨h0, Memory.wf_put _ _ hw, cellsPut_lt h0 hb⟩
  · exact ⟨Nat.zero_le _, hw, hb⟩
  · exact ⟨h1, Memory.wf_put _ _ hw, cellsPut_lt h1 hb⟩
  · exact ⟨h1, Memory.wf_put _ _ hw, cellsPut_lt h1 hb⟩

/-- A byte action does not see `start`, `cur` or `lane`: with other values there it makes the same change (R121). -/
theorem byteAction_unseen {n : Nat} {b : Byte} {s t : State} (i : Nat) (p : Payload) (k : BitVec 2)
    (h : byteAction n b s = .next t) :
    byteAction n b { s with start := i, cur := p, lane := k } = .next { t with start := i, cur := p, lane := k } := by
  have hm' : ({ s with start := i, cur := p, lane := k } : State).mode = s.mode := rfl
  rcases byteAction_cases h with ⟨h, rfl⟩ | ⟨hm, hc, h0, rfl⟩ | ⟨hm, hc, rfl⟩ | ⟨hm, hc, h1, rfl⟩ | ⟨hm, hc, h1, rfl⟩
  · rcases h with h | h | ⟨h, h'⟩
    · cases hc : classify b <;>
        simp [byteAction, rtAction, hdrAction, statAction, termAction, dataAction, hc, hm', h]
    · simp [byteAction, rtAction, h]
    · cases hc : classify b <;>
        simp_all [byteAction, rtAction, hdrAction, statAction, termAction, dataAction]
  · cases hs : s.mode <;> simp_all [byteAction, hdrAction, fbufWrite] <;> rfl
  · simp [byteAction, statAction, hm', hm, hc]; rfl
  · simp [byteAction, termAction, hm', hm, hc, pushByte, fbufWrite, h1]; rfl
  · simp [byteAction, dataAction, hm', hm, hc, pushByte, fbufWrite, h1]; rfl

/-! The frame in progress. -/

theorem State.frameBytes_length (s : State) : s.frameBytes.length = s.len := by simp [State.frameBytes]

theorem State.frameBytes_push (s : State) (b : Byte) :
    ((s.putByte s.len b).setLen (s.len + 1)).frameBytes = s.frameBytes ++ [b] := by
  simp only [State.frameBytes, State.setLen_len, List.range_succ, List.map_append, List.map_cons, List.map_nil]
  congr 1
  · refine List.map_congr_left fun i hi => ?_
    have hi : i < s.len := List.mem_range.1 hi
    exact (State.fbufAt_putByte s s.len i b).trans (if_neg (by omega))
  · exact congrArg (· :: []) ((State.fbufAt_putByte s s.len s.len b).trans (if_pos rfl))

theorem State.frameBytes_header (s : State) : ((s.putByte 0 0xF0).setLen 1).frameBytes = [0xF0] :=
  congrArg (· :: []) ((State.fbufAt_putByte s 0 0 0xF0).trans (if_pos rfl))

/-- Setting `done` does not touch the bytes. -/
theorem State.frameBytes_setDone (s : State) (d : Bool) : (s.setDone d).frameBytes = s.frameBytes := rfl

/-- A byte action makes the scan's transition (R122). -/
theorem byteAction_scan {n : Nat} {b : Byte} {s t : State} (h : byteAction n b s = .next t) :
    t.scan = s.scan.next b := by
  rcases byteAction_cases h with ⟨h, rfl⟩ | ⟨hm, hc, h0, rfl⟩ | ⟨hm, hc, rfl⟩ | ⟨hm, hc, h1, rfl⟩ | ⟨hm, hc, h1, rfl⟩
  · rcases h with h | h | ⟨h, h'⟩
    · simp [State.scan, h, Scan.next]
    · cases hm : t.mode <;> simp [State.scan, hm, Scan.next, h]
    · cases hc : classify b <;> simp_all [State.scan, Scan.next]
  · have hd : s.done = false := by simpa [State.mode_done] using hm
    have : ((s.putByte 0 0xF0).setLen 1).mode = .accum := State.mode_accum.2 ⟨hd, Nat.one_pos⟩
    rw [State.scan, this, State.frameBytes_header]
    cases hm' : s.mode <;> simp_all [State.scan, Scan.next]
  · obtain ⟨hd, _⟩ := State.mode_accum.1 hm
    have : (s.setLen 0).mode = .idle := State.mode_idle.2 ⟨hd, rfl⟩
    simp [State.scan, this, hm, Scan.next, hc]
  · have : (((s.putByte s.len 0xF7).setLen (s.len + 1)).setDone true).mode = .done := State.mode_done.2 rfl
    rw [State.scan, this, State.frameBytes_setDone, State.frameBytes_push]
    simp [State.scan, hm, Scan.next, hc]
  · obtain ⟨hd, _⟩ := State.mode_accum.1 hm
    have : ((s.putByte s.len b).setLen (s.len + 1)).mode = .accum := State.mode_accum.2 ⟨hd, Nat.succ_pos _⟩
    simp [State.scan, this, hm, Scan.next, hc, State.frameBytes_push]

end Sys2Proof.Machine
end

