-- ==== Sys2Proof/Laws/Decode.lean ====
section
/-!
SUPPORT. The class of a byte by its value (30_encoding.md R73), and the two directions of the EVENT operand.
-/

namespace Sys2Proof

theorem eventOfBits_bitsOfEvent (ev : RawEvent) : eventOfBits (bitsOfEvent ev) = ev := by
  obtain ⟨p, t⟩ := ev
  have hp : (t ++ p).extractLsb' 0 32 = p := by
    ext i hi
    simp only [BitVec.getElem_extractLsb', BitVec.getLsbD_append]
    have : i < 32 := hi
    simp [this]
  have ht : (t ++ p).extractLsb' 32 Config.tsW = t := by
    ext i hi
    simp [BitVec.getElem_extractLsb', BitVec.getLsbD_append, hi]
  rw [eventOfBits, bitsOfEvent]
  exact congrArg₂ RawEvent.mk hp ht

theorem classify_rt {b : Byte} (h : 0xF8#8 ≤ b) : classify b = .rt := by simp [classify, h]

theorem classify_hdr : classify 0xF0#8 = .hdr := by decide

theorem classify_term : classify 0xF7#8 = .term := by decide

theorem classify_data_lt {b : Byte} (h : classify b = .data) : b.getLsbD 7 = false := by
  unfold classify at h
  split_ifs at h with h1 h2 h3 h4
  simpa using h4

end Sys2Proof
end

