-- ==== Sys2Proof/Laws/Ring.lean ====
section
/-!
SUPPORT. The queue: `count` and `contents` (00_scope.md R13) under a read, a write, and an eviction.
-/

namespace Sys2Proof.Machine

open Sys2Proof.Config (ringSize frameMax)

theorem State.count_lt (n : Nat) (s : State) : s.count n < ringSize n := Nat.mod_lt _ (Nat.succ_pos n)

theorem State.count_le (n : Nat) (s : State) : s.count n ≤ n := Nat.lt_succ_iff.1 (State.count_lt n s)

/-- `count` by cases on the wrap, for indices in range. -/
theorem InRange.count_eq {n : Nat} {s : State} (h : InRange n s) :
    s.count n = if s.start ≤ s.end_ then s.end_ - s.start else s.end_ + ringSize n - s.start := by
  obtain ⟨h1, h2⟩ := h
  unfold State.count
  split
  · rw [show s.end_ + ringSize n - s.start = (s.end_ - s.start) + ringSize n by omega, Nat.add_mod_right]
    exact Nat.mod_eq_of_lt (by omega)
  · exact Nat.mod_eq_of_lt (by omega)

theorem InRange.isEmpty_iff {n : Nat} {s : State} (h : InRange n s) : s.isEmpty = true ↔ s.count n = 0 := by
  have := h.start_lt
  rw [h.count_eq, State.isEmpty, beq_iff_eq]
  split <;> omega

theorem InRange.isFull_iff {n : Nat} {s : State} (h : InRange n s) : s.isFull n = true ↔ s.count n = n := by
  have h1 := h.start_lt
  have h2 := h.end_lt
  rw [h.count_eq, State.isFull, beq_iff_eq, nextIndex_eq h2]
  unfold ringSize at *
  split <;> split <;> omega

theorem State.contents_length (n : Nat) (s : State) : (s.contents n).length = s.count n := by
  simp [State.contents]

/-- `contents` depends on the indices and the slots alone. -/
theorem State.contents_congr {n : Nat} {s t : State} (h1 : t.start = s.start) (h2 : t.end_ = s.end_)
    (h3 : t.slots = s.slots) (h4 : t.ringEra = s.ringEra) : t.contents n = s.contents n := by
  simp only [State.contents, State.count, h1, h2, State.slotAt_congr h3 h4]

@[simp] theorem State.contents_answer (n : Nat) (s : State) (r : Reply) : (s.answer r).contents n = s.contents n := rfl

@[simp] theorem State.contents_raise (n : Nat) (s : State) (c : FaultCode) : (s.raise c).contents n = s.contents n := rfl

@[simp] theorem State.contents_take (n : Nat) (s : State) (rest : List Request) :
    (s.take rest).contents n = s.contents n := rfl

/-- The `k`-th index of the live window. -/
def State.at (n : Nat) (s : State) (k : Nat) : Nat := (s.start + k) % ringSize n

theorem State.at_lt (n : Nat) (s : State) (k : Nat) : s.at n k < ringSize n := Nat.mod_lt _ (Nat.succ_pos n)

/-- Reading: `start` advances past the first of the window. -/
theorem InRange.count_read {n : Nat} {s : State} (h : InRange n s) (he : s.isEmpty = false) :
    s.count n = (s.setStart (nextIndex n s.start)).count n + 1 := by
  have h1 := h.start_lt
  have h2 := h.end_lt
  have he' : s.end_ ≠ s.start := by simpa [State.isEmpty] using he
  have h' : InRange n (s.setStart (nextIndex n s.start)) := ⟨nextIndex_lt n _, h2⟩
  rw [h.count_eq, h'.count_eq]
  simp only [State.setStart_start, State.setStart_end_, nextIndex_eq h1]
  unfold ringSize at *
  split <;> split <;> split <;> omega

theorem State.at_setStart_next (n : Nat) (s : State) (k : Nat) :
    (s.setStart (nextIndex n s.start)).at n k = s.at n (k + 1) := by
  simp only [State.at, State.setStart_start, nextIndex, Nat.mod_add_mod]
  congr 1; omega

theorem InRange.contents_read {n : Nat} {s : State} (h : InRange n s) (he : s.isEmpty = false) :
    s.contents n = s.slotAt s.start :: (s.setStart (nextIndex n s.start)).contents n := by
  have hs : (s.start + 0) % ringSize n = s.start := Nat.mod_eq_of_lt h.start_lt
  rw [State.contents, h.count_read he, List.range_succ_eq_map, List.map_cons, List.map_map, hs]
  refine congrArg _ (List.map_congr_left fun k _ => ?_)
  exact congrArg s.slotAt (State.at_setStart_next n s k).symm

theorem InRange.contents_empty {n : Nat} {s : State} (h : InRange n s) (he : s.isEmpty = true) : s.contents n = [] := by
  simp [State.contents, h.isEmpty_iff.1 he]

/-- The window's indices are distinct from `end`. -/
theorem InRange.at_ne_end {n : Nat} {s : State} (h : InRange n s) {k : Nat} (hk : k < s.count n) : s.at n k ≠ s.end_ := by
  have h1 := h.start_lt
  have h2 := h.end_lt
  rw [h.count_eq] at hk
  intro he
  unfold State.at at he
  split at hk
  · rw [Nat.mod_eq_of_lt (by omega)] at he; omega
  · by_cases hw : s.start + k < ringSize n
    · rw [Nat.mod_eq_of_lt hw] at he; omega
    · rw [Nat.mod_eq_sub_mod (by omega), Nat.mod_eq_of_lt (by omega)] at he; omega

theorem InRange.at_count {n : Nat} {s : State} (h : InRange n s) : s.at n (s.count n) = s.end_ := by
  have h1 := h.start_lt
  have h2 := h.end_lt
  rw [State.at, h.count_eq]
  split
  · rw [Nat.mod_eq_of_lt (by omega)]; omega
  · rw [Nat.mod_eq_sub_mod (by omega), Nat.mod_eq_of_lt (by omega)]; omega

/-- The state after the store and the advance of a write, before any eviction. -/
def State.stored (n : Nat) (ev : RawEvent) (s : State) : State := (s.putSlot s.end_ ev).setEnd (nextIndex n s.end_)

@[simp] theorem State.stored_start (n : Nat) (ev : RawEvent) (s : State) : (s.stored n ev).start = s.start := rfl

@[simp] theorem State.stored_end_ (n : Nat) (ev : RawEvent) (s : State) : (s.stored n ev).end_ = nextIndex n s.end_ := rfl

/-- A write into a queue that is not full. -/
theorem InRange.contents_write_room {n : Nat} {s : State} (h : InRange n s) (hf : s.isFull n = false) (ev : RawEvent) :
    (s.stored n ev).count n = s.count n + 1 ∧ (s.stored n ev).contents n = s.contents n ++ [ev] ∧
      (s.stored n ev).end_ ≠ (s.stored n ev).start := by
  have h1 := h.start_lt
  have h2 := h.end_lt
  have hf' : nextIndex n s.end_ ≠ s.start := by simpa [State.isFull] using hf
  have h' : InRange n (s.stored n ev) := ⟨h1, nextIndex_lt n _⟩
  have hc : (s.stored n ev).count n = s.count n + 1 := by
    rw [nextIndex_eq h2] at hf'
    rw [h.count_eq, h'.count_eq]
    simp only [State.stored_start, State.stored_end_, nextIndex_eq h2]
    unfold ringSize at *
    split_ifs at hf' ⊢ <;> omega
  refine ⟨hc, ?_, hf'⟩
  rw [State.contents, hc, List.range_succ, List.map_append]
  congr 1
  · refine List.map_congr_left fun k hk => ?_
    have : s.at n k ≠ s.end_ := h.at_ne_end (List.mem_range.1 hk)
    exact (State.slotAt_putSlot s s.end_ (s.at n k) ev).trans (if_neg this)
  · have : (s.start + s.count n) % ringSize n = s.end_ := h.at_count
    simp only [State.stored, State.setEnd_start, State.putSlot_start, List.map_cons, List.map_nil, this]
    exact congrArg (· :: []) ((State.slotAt_putSlot s s.end_ s.end_ ev).trans (if_pos rfl))

/-- Evicting before a write: the oldest goes, and there is room. -/
theorem InRange.evicted_isFull {n : Nat} (hn : 0 < n) {s : State} (h : InRange n s) (hf : s.isFull n = true) :
    (s.setStart (nextIndex n s.start)).isFull n = false := by
  have h1 := h.start_lt
  have h2 := h.end_lt
  have hf' : nextIndex n s.end_ = s.start := by simpa [State.isFull] using hf
  have : nextIndex n s.end_ ≠ nextIndex n s.start := by
    rw [nextIndex_eq h1, nextIndex_eq h2]
    rw [nextIndex_eq h2] at hf'
    unfold ringSize at *
    split at hf' <;> split <;> split <;> omega
  simpa [State.isFull] using this

/-- Both orders of a write reach the same state (R109). -/
theorem State.write_eq (n : Nat) (s : State) (ev : RawEvent) :
    evictIfFilled n (s.stored n ev) =
      (if s.isFull n then s.setStart (nextIndex n s.start) else s).stored n ev := by
  by_cases hf : s.isFull n = true
  · have : nextIndex n s.end_ = s.start := by simpa [State.isFull] using hf
    simp [evictIfFilled, State.stored, hf, this]; rfl
  · have : nextIndex n s.end_ ≠ s.start := by simpa [State.isFull] using hf
    simp [evictIfFilled, State.stored, hf, this]

/-- `contents` after a write, full or not (R104). -/
theorem InRange.contents_write {n : Nat} (hn : 0 < n) {s : State} (h : InRange n s) (ev : RawEvent) :
    (evictIfFilled n (s.stored n ev)).contents n =
      (if (s.contents n).length = n then (s.contents n).tail else s.contents n) ++ [ev] := by
  rw [State.write_eq, State.contents_length]
  by_cases hf : s.isFull n = true
  · have he : s.isEmpty = false := by
      have := h.isFull_iff.1 hf
      rw [← Bool.not_eq_true, h.isEmpty_iff]; omega
    have h' : InRange n (s.setStart (nextIndex n s.start)) := ⟨nextIndex_lt n _, h.end_lt⟩
    rw [if_pos hf, if_pos (h.isFull_iff.1 hf), (h'.contents_write_room (h.evicted_isFull hn hf) ev).2.1,
      h.contents_read he, List.tail_cons]
  · rw [if_neg hf, if_neg fun hc => hf (h.isFull_iff.2 hc), (h.contents_write_room (by simpa using hf) ev).2.1]

end Sys2Proof.Machine
end

