-- ==== Sys2Proof/Laws/Pass.lean ====
section
/-!
SUPPORT. The pass: what scanning a byte, an event and a whole queue does to the state, and that the drain completes.
-/

namespace Sys2Proof.Machine

open Sys2Proof.Config (ringSize frameMax)

/-- From `s` to `t` the bytes `bs` were scanned: only working registers changed, and the scan made its transitions. -/
structure Scanned (n : Nat) (bs : List Byte) (s t : State) : Prop where
  frame : t = { s with len := t.len, fbuf := t.fbuf, done := t.done, cur := t.cur, lane := t.lane }
  scan : t.scan = bs.foldl Scan.next s.scan
  len_le : t.len ≤ s.len + bs.length
  keeps : s.len ≤ frameMax n → Memory.wf s.fbuf = true → (∀ p ∈ s.fbuf, p.1 < frameMax n) →
    t.len ≤ frameMax n ∧ Memory.wf t.fbuf = true ∧ ∀ p ∈ t.fbuf, p.1 < frameMax n

theorem Scanned.refl (n : Nat) (s : State) : Scanned n [] s s := ⟨rfl, rfl, Nat.le_refl _, fun h1 h2 h3 => ⟨h1, h2, h3⟩⟩

theorem Scanned.trans {n : Nat} {bs cs : List Byte} {s t u : State} (h : Scanned n bs s t) (k : Scanned n cs t u) :
    Scanned n (bs ++ cs) s u where
  frame := by rw [k.frame, h.frame]
  scan := by rw [k.scan, h.scan, List.foldl_append]
  len_le := by have := h.len_le; have := k.len_le; rw [List.length_append]; omega
  keeps h1 h2 h3 := by obtain ⟨k1, k2, k3⟩ := h.keeps h1 h2 h3; exact k.keeps k1 k2 k3

theorem byteAction_scanned {n : Nat} {b : Byte} {s t : State} (h : byteAction n b s = .next t) : Scanned n [b] s t where
  frame := by rw [byteAction_frame h]
  scan := byteAction_scan h
  len_le := byteAction_len_le h
  keeps := byteAction_keeps_fbuf h

/-- Loading `cur` or `lane` scans nothing. -/
theorem Scanned.setCur (n : Nat) (s : State) (p : Payload) : Scanned n [] s (s.setCur p) :=
  ⟨rfl, rfl, Nat.le_refl _, fun h1 h2 h3 => ⟨h1, h2, h3⟩⟩

theorem Scanned.setLane (n : Nat) (s : State) (k : BitVec 2) : Scanned n [] s (s.setLane k) :=
  ⟨rfl, rfl, Nat.le_refl _, fun h1 h2 h3 => ⟨h1, h2, h3⟩⟩

theorem scanLane_scanned {n : Nat} {k : BitVec 2} {s t : State} (h : scanLane n k s = .next t) :
    Scanned n [laneByte s.cur k] s t ∧ t.cur = s.cur :=
  ⟨(Scanned.setLane n s k).trans (byteAction_scanned h), by rw [byteAction_frame h]; rfl⟩

theorem scanLane_completes {n : Nat} (k : BitVec 2) {s : State} (h : s.len < frameMax n) :
    ∃ t, scanLane n k s = .next t := byteAction_completes _ h

/-- Scanning an event scans its four bytes, lane 0 first (R144). -/
theorem scanEvent_scanned {n : Nat} {ev : RawEvent} {s t : State} (h : scanEvent n ev s = .next t) :
    Scanned n (eventBytes ev) s t := by
  simp only [scanEvent, andThen_eq_next] at h
  obtain ⟨s3, ⟨s2, ⟨s1, h0, h1⟩, h2⟩, h3⟩ := h
  obtain ⟨k0, c0⟩ := scanLane_scanned h0
  obtain ⟨k1, c1⟩ := scanLane_scanned h1
  obtain ⟨k2, c2⟩ := scanLane_scanned h2
  obtain ⟨k3, _⟩ := scanLane_scanned h3
  have hc : (s.setCur ev.payload).cur = ev.payload := rfl
  rw [c2, c1, c0, hc] at k3
  rw [c1, c0, hc] at k2
  rw [c0, hc] at k1
  rw [hc] at k0
  exact ((((Scanned.setCur n s ev.payload).trans k0).trans k1).trans k2).trans k3

theorem scanEvent_completes {n : Nat} (ev : RawEvent) {s : State} (h : s.len + 4 ≤ frameMax n) :
    ∃ t, scanEvent n ev s = .next t := by
  obtain ⟨s0, h0⟩ := scanLane_completes (n := n) 0 (s := s.setCur ev.payload) (by simp; omega)
  have l0 : s0.len ≤ s.len + 1 := (scanLane_scanned h0).1.len_le
  obtain ⟨s1, h1⟩ := scanLane_completes (n := n) 1 (s := s0) (by omega)
  have l1 : s1.len ≤ s0.len + 1 := (scanLane_scanned h1).1.len_le
  obtain ⟨s2, h2⟩ := scanLane_completes (n := n) 2 (s := s1) (by omega)
  have l2 : s2.len ≤ s1.len + 1 := (scanLane_scanned h2).1.len_le
  obtain ⟨s3, h3⟩ := scanLane_completes (n := n) 3 (s := s2) (by omega)
  exact ⟨s3, by rw [scanEvent, h0, andThen_next, h1, andThen_next, h2, andThen_next, h3]⟩

/-- Whatever the registers hold, a drain writes `start` and the working registers and nothing else. -/
theorem drain_frame {n turns : Nat} {s t : State} (h : drain n turns s = .next t) :
    t = { s with start := t.start, len := t.len, fbuf := t.fbuf, done := t.done, cur := t.cur, lane := t.lane } := by
  induction turns generalizing s with
  | zero =>
    simp only [drain] at h
    split at h
    · obtain rfl : s = t := by simpa using h
      rfl
    · cases h
  | succ turns ih =>
    simp only [drain] at h
    split at h
    · obtain rfl : s = t := by simpa using h
      rfl
    · obtain ⟨_, h⟩ := takeOldest_eq_next.1 h
      obtain ⟨u, hu, hd⟩ := andThen_eq_next.1 h
      rw [ih hd, (scanEvent_scanned hu).frame]
      rfl

/-- What a drain that answers a next state has done: scanned the stream of the queue, and emptied it (R140, R141). -/
theorem drain_scanned {n turns : Nat} {s t : State} (hr : InRange n s) (h : drain n turns s = .next t) :
    Scanned n (streamOf (s.contents n)) (s.setStart s.end_) t := by
  have empty : ∀ {s t : State}, InRange n s → s.isEmpty = true → s = t →
      Scanned n (streamOf (s.contents n)) (s.setStart s.end_) t := by
    rintro s t hr he rfl
    have hs : s.end_ = s.start := by simpa [State.isEmpty] using he
    rw [hr.contents_empty he, hs]
    exact Scanned.refl n s
  induction turns generalizing s with
  | zero =>
    simp only [drain] at h
    split at h
    · next he => exact empty hr he (by simpa using h)
    · cases h
  | succ turns ih =>
    simp only [drain] at h
    split at h
    · next he => exact empty hr he (by simpa using h)
    · next he =>
      obtain ⟨_, h⟩ := takeOldest_eq_next.1 h
      obtain ⟨u, hu, hd⟩ := andThen_eq_next.1 h
      have ku := scanEvent_scanned hu
      have hr1 : InRange n (s.setStart (nextIndex n s.start)) := ⟨nextIndex_lt n _, hr.end_lt⟩
      have hru : InRange n u := by rw [ku.frame]; exact ⟨hr1.start_lt, hr1.end_lt⟩
      have hcu : u.contents n = (s.setStart (nextIndex n s.start)).contents n := by
        rw [ku.frame]; exact State.contents_congr rfl rfl rfl rfl
      have kd := ih hru hd
      rw [hr.contents_read (by simpa using he), ← hcu]
      have k1 : Scanned n (eventBytes (s.slotAt s.start)) (s.setStart s.end_) (u.setStart u.end_) :=
        { frame := by rw [ku.frame]; rfl
          scan := ku.scan
          len_le := ku.len_le
          keeps := ku.keeps }
      exact k1.trans kd

/-- The drain completes when it has as many turns as there are events and room for their bytes (R148, R151). -/
theorem drain_completes {n turns : Nat} {s : State} (hr : InRange n s) (ht : s.count n ≤ turns)
    (hl : s.len + 4 * s.count n ≤ frameMax n) : ∃ t, drain n turns s = .next t := by
  induction turns generalizing s with
  | zero => exact ⟨s, by simp [drain, hr.isEmpty_iff.2 (Nat.le_zero.1 ht)]⟩
  | succ turns ih =>
    by_cases he : s.isEmpty = true
    · exact ⟨s, by simp [drain, he]⟩
    · have he : s.isEmpty = false := by simpa using he
      have hr1 : InRange n (s.setStart (nextIndex n s.start)) := ⟨nextIndex_lt n _, hr.end_lt⟩
      have hc := hr.count_read he
      obtain ⟨u, hu⟩ := scanEvent_completes (n := n) (s.slotAt s.start) (s := s.setStart (nextIndex n s.start))
        (by simp only [State.setStart_len]; omega)
      have ku := scanEvent_scanned hu
      have hru : InRange n u := by rw [ku.frame]; exact ⟨hr1.start_lt, hr1.end_lt⟩
      have hcu : u.count n = (s.setStart (nextIndex n s.start)).count n := by rw [ku.frame]; rfl
      have hlu : u.len ≤ s.len + 4 := ku.len_le
      obtain ⟨t, hd⟩ := ih hru (by omega) (by omega)
      exact ⟨t, by simp [drain, he, takeOldest_inRange hr.start_lt, hu, hd]⟩

/-- Turns beyond the number of events change nothing (R151). -/
theorem drain_turns {n turns turns' : Nat} {s : State} (hr : InRange n s) (ht : s.count n ≤ turns) (h : turns ≤ turns') :
    drain n turns' s = drain n turns s := by
  induction turns generalizing s turns' with
  | zero =>
    have he := hr.isEmpty_iff.2 (Nat.le_zero.1 ht)
    cases turns' <;> simp [drain, he]
  | succ turns ih =>
    obtain ⟨m, rfl⟩ : ∃ m, turns' = m + 1 := ⟨turns' - 1, by omega⟩
    by_cases he : s.isEmpty = true
    · simp [drain, he]
    · have he : s.isEmpty = false := by simpa using he
      have hr1 : InRange n (s.setStart (nextIndex n s.start)) := ⟨nextIndex_lt n _, hr.end_lt⟩
      have hc := hr.count_read he
      simp only [drain, he, takeOldest_inRange hr.start_lt]
      cases hu : scanEvent n (s.slotAt s.start) (s.setStart (nextIndex n s.start)) with
      | next u =>
        have ku := scanEvent_scanned hu
        have hru : InRange n u := by rw [ku.frame]; exact ⟨hr1.start_lt, hr1.end_lt⟩
        have hcu : u.count n = (s.setStart (nextIndex n s.start)).count n := by rw [ku.frame]; rfl
        simpa using ih hru (by omega) (by omega)
      | fault r => rfl
      | refused r => rfl

/-- The result of a pass is told from its scan. -/
theorem State.passResult_eq (t : State) :
    t.passResult = match t.scan with
      | .found f => .result true f.length f
      | _ => .result false 0 [] := by
  unfold State.passResult State.scan
  cases hm : t.mode with
  | done => simp [State.mode_done.1 hm, State.frameBytes_length]
  | idle => simp [(State.mode_idle.1 hm).1]
  | accum => simp [(State.mode_accum.1 hm).1]

/-- `FX_EXTRACT` from a state in range: it completes, and the end state is the start state with the queue emptied, the
result of the stream handed back, and the working state unspecified (R140, R141). -/
theorem fxExtract_ready {n : Nat} {s : State} (hr : InRange n s) (hl : s.life = .ready) :
    fxExtract n s = .next (((s.setStart s.end_).answer
      (match firstFrame (streamOf (s.contents n)) with
        | some f => .result true f.length f
        | none => .result false 0 [])).dropPass n) := by
  have hr0 : InRange n ((s.setLen 0).setDone false) := ⟨hr.start_lt, hr.end_lt⟩
  have hc : ((s.setLen 0).setDone false).count n = s.count n := rfl
  have hcn := State.count_le n s
  obtain ⟨t, ht⟩ := drain_completes (turns := ringSize n) hr0 (by rw [hc]; unfold ringSize; omega)
    (by rw [hc]; simp only [State.setDone_len, State.setLen_len]; unfold frameMax; omega)
  have k := drain_scanned hr0 ht
  have hs : t.scan = (streamOf (s.contents n)).foldl Scan.next .idle := k.scan
  have hp : t.passResult = match firstFrame (streamOf (s.contents n)) with
      | some f => .result true f.length f
      | none => .result false 0 [] := by
    rw [State.passResult_eq, hs, firstFrame]
    cases (streamOf (s.contents n)).foldl Scan.next .idle <;> rfl
  rw [fxExtract, whenLife_same hl, ht, andThen_next, hp]
  have hf := k.frame
  simp only [State.dropPass]
  rw [hf]
  rfl

end Sys2Proof.Machine
end

