-- ==== Sys2Proof/Laws/PerInstr.lean ====
section
/-!
SUPPORT. The family Format: an instruction is a command of the host exactly when its word has format CMD with a code
that is not the reserved one; every other instruction's word is one byte (30_encoding.md R70, R80, R81).
-/

namespace Sys2Proof.Laws.Format

/-- The format of an instruction's word tells whether it is a command. -/
def Statement (i : Instr) : Prop :=
  (i.isCommand = true → ∃ code operand, encode i = .cmd code operand ∧ code ≠ 0b111#3) ∧
  (i.isCommand = false → ∃ b, encode i = .byte b)

theorem data (b : Byte) : Statement (.data b) := ⟨nofun, fun _ => ⟨b, rfl⟩⟩
theorem stat (b : Byte) : Statement (.stat b) := ⟨nofun, fun _ => ⟨b, rfl⟩⟩
theorem hdr : Statement .hdr := ⟨nofun, fun _ => ⟨_, rfl⟩⟩
theorem term : Statement .term := ⟨nofun, fun _ => ⟨_, rfl⟩⟩
theorem rt (b : Byte) : Statement (.rt b) := ⟨nofun, fun _ => ⟨b, rfl⟩⟩
theorem rbInit : Statement .rbInit := ⟨fun _ => ⟨_, _, rfl, by decide⟩, nofun⟩
theorem rbIsFull : Statement .rbIsFull := ⟨fun _ => ⟨_, _, rfl, by decide⟩, nofun⟩
theorem rbIsEmpty : Statement .rbIsEmpty := ⟨fun _ => ⟨_, _, rfl, by decide⟩, nofun⟩
theorem rbWrite (ev : RawEvent) : Statement (.rbWrite ev) := ⟨fun _ => ⟨_, _, rfl, by decide⟩, nofun⟩
theorem rbRead : Statement .rbRead := ⟨fun _ => ⟨_, _, rfl, by decide⟩, nofun⟩
theorem rbFree : Statement .rbFree := ⟨fun _ => ⟨_, _, rfl, by decide⟩, nofun⟩
theorem fxExtract : Statement .fxExtract := ⟨fun _ => ⟨_, _, rfl, by decide⟩, nofun⟩

end Sys2Proof.Laws.Format
end

