-- ==== Sys2Proof/Laws/RingCommands.lean ====
section
/-!
SUPPORT. One law per RingBuffer command: what it answers from a state whose indices are in range.
-/

namespace Sys2Proof.Machine

open Sys2Proof.Config (ringSize frameMax)

theorem rbInit_uninit {s : State} (h : s.life = .uninit) :
    rbInit s = .next ((((s.setStart 0).setEnd 0).setLife .ready).answer .nothing) := whenLife_same h _

theorem rbWrite_ready {n : Nat} {s : State} (hr : InRange n s) (h : s.life = .ready) (ev : RawEvent) :
    rbWrite n ev s = .next ((evictIfFilled n (s.stored n ev)).answer .nothing) := by
  rw [rbWrite, whenLife_same h, putNewest_inRange hr.end_lt]
  rfl

theorem rbRead_empty {n : Nat} {s : State} (h : s.life = .ready) (he : s.isEmpty = true) :
    rbRead n s = .next (s.raise .underflow) := by
  rw [rbRead, whenLife_same h, if_pos he]

theorem rbRead_ready {n : Nat} {s : State} (hr : InRange n s) (h : s.life = .ready) (he : s.isEmpty = false) :
    rbRead n s = .next ((s.setStart (nextIndex n s.start)).answer (.event (s.slotAt s.start))) := by
  rw [rbRead, whenLife_same h, if_neg (by simp [he]), takeOldest_inRange hr.start_lt]

theorem rbFree_ready {n : Nat} {s : State} (h : s.life = .ready) :
    rbFree n s = .next (((s.setLife .uninit).dropRing n).answer .nothing) := whenLife_same h _

/-! Indices stay in range (R107). -/

theorem InRange.stored {n : Nat} {s : State} (hr : InRange n s) (ev : RawEvent) : InRange n (s.stored n ev) :=
  ⟨hr.start_lt, nextIndex_lt n _⟩

theorem InRange.evict {n : Nat} {s : State} (hr : InRange n s) : InRange n (evictIfFilled n s) := by
  unfold evictIfFilled
  split
  · exact ⟨nextIndex_lt n _, hr.end_lt⟩
  · exact hr

theorem State.dropRing_inRange (n : Nat) (s : State) : InRange n (s.dropRing n) :=
  ⟨Nat.mod_lt _ (Nat.succ_pos n), Nat.mod_lt _ (Nat.succ_pos n)⟩

/-- Eviction writes `start` alone. -/
theorem evictIfFilled_frame (n : Nat) (s : State) : evictIfFilled n s = { s with start := (evictIfFilled n s).start } := by
  unfold evictIfFilled; split <;> rfl

end Sys2Proof.Machine
end

