-- ==== Sys2Proof/Laws/Step.lean ====
section
/-!
SUPPORT. What a step can do when it answers a next state.
-/

namespace Sys2Proof.Machine

/-- A step idles, resets the block, or executes one decoded command. -/
theorem step_cases {s t : State} (h : step s = .next t) :
    (s.inbox = [] ∧ t = s) ∨
    (∃ rest, s.inbox = .hardwareReset :: rest ∧ t = State.hardwareReset Config.usable (s.take rest)) ∨
    ∃ code operand rest i, s.inbox = .command code operand :: rest ∧ decode (.cmd code operand) = .ok i ∧
      exec i (s.take rest) = .next t := by
  cases hi : s.inbox with
  | nil => simp only [step, hi, Host.Outcome.next.injEq] at h; exact .inl ⟨rfl, h.symm⟩
  | cons r rest =>
    simp only [step, hi] at h
    cases r with
    | hardwareReset => exact .inr (.inl ⟨rest, rfl, (Host.Outcome.next.inj h).symm⟩)
    | command code operand =>
      simp only [runRequest, runCommand] at h
      split at h
      · next i hd => exact .inr (.inr ⟨code, operand, rest, i, rfl, hd, h⟩)
      · cases h

end Sys2Proof.Machine
end

