-- ==== Sys2Proof/Tests/Slice0.lean ====
section
/-!
SUPPORT. Tests of the model on the vectors of spec/95_test_vectors.md, and for each statement a witness that meets its
hypotheses.
-/

namespace Sys2Proof.Tests

open Sys2Proof.Machine
open Sys2Proof.Config (usable ringSize frameMax)

/-! ## WellFormed: one ill-formed term for each check -/

theorem test_wellFormed_refuses_data : (Instr.data 0x80).wellFormed = false := by decide
theorem test_wellFormed_refuses_stat : (Instr.stat 0xF0).wellFormed = false := by decide
theorem test_wellFormed_refuses_rt : (Instr.rt 0xF7).wellFormed = false := by decide
theorem test_wellFormed_accepts : (Instr.data 0x7F).wellFormed = true ∧ (Instr.stat 0xF6).wellFormed = true ∧
    (Instr.rt 0xF8).wellFormed = true := by decide

/-! ## Decoding: words written out from the encodings of R73 and R80, and the classes V-C1 to V-C16 -/

theorem test_decode_data : decode (.byte 0b01111111) = .ok (.data 0x7F) := rfl
theorem test_decode_stat : decode (.byte 0b10000000) = .ok (.stat 0x80) := rfl
theorem test_decode_hdr : decode (.byte 0b11110000) = .ok .hdr := rfl
theorem test_decode_term : decode (.byte 0b11110111) = .ok .term := rfl
theorem test_decode_rt : decode (.byte 0b11111000) = .ok (.rt 0xF8) := rfl
theorem test_decode_rbInit : decode (.cmd 0b000 0) = .ok .rbInit := rfl
theorem test_decode_rbIsFull : decode (.cmd 0b001 0) = .ok .rbIsFull := rfl
theorem test_decode_rbIsEmpty : decode (.cmd 0b010 0) = .ok .rbIsEmpty := rfl
theorem test_decode_rbRead : decode (.cmd 0b100 0) = .ok .rbRead := rfl
theorem test_decode_rbFree : decode (.cmd 0b101 0) = .ok .rbFree := rfl
theorem test_decode_fxExtract : decode (.cmd 0b110 0) = .ok .fxExtract := rfl

/-- The event of V-X1's first payload, with any timestamp. -/
theorem test_decode_rbWrite (ts : BitVec Config.tsW) :
    decode (.cmd 0b011 (ts ++ 0x332211F0#32)) = .ok (.rbWrite ⟨0x332211F0, ts⟩) :=
  congrArg (fun e => Except.ok (Instr.rbWrite e)) (eventOfBits_bitsOfEvent ⟨0x332211F0, ts⟩)

/-- V-C1 to V-C16. -/
theorem test_classes :
    ([0x00, 0x7F].map classify = [.data, .data]) ∧ (classify 0xF0 = .hdr) ∧ (classify 0xF7 = .term) ∧
    ([0x80, 0x90, 0xBF, 0xC0, 0xEF, 0xF1, 0xF2, 0xF5, 0xF6].map classify = List.replicate 9 .stat) ∧
    ([0xF8, 0xFE, 0xFF].map classify = List.replicate 3 .rt) := by decide

/-- V-L1 and V-L2. -/
theorem test_lanes : eventBytes ⟨0x332211F0, 0⟩ = [0xF0, 0x11, 0x22, 0x33] ∧
    eventBytes ⟨0xF7060504, 0⟩ = [0x04, 0x05, 0x06, 0xF7] := by decide

/-- The host's tick of the table: one command word and one byte word, run as the first instruction after reset. -/
theorem test_table_words : decodeTableWord 8 0x06 = some .fxExtract ∧ decodeTableWord 8 0xF0 = some .hdr ∧
    decodeTableWord 8 0x80 = some (.stat 0x80) := by decide

/-! ## Instructions, one step each -/

/-- A byte of the table is executed by a pass over the event that carries it, and by nothing else: from reset the next
step answers the result of that event's bytes, and the queue is empty (R15, R141). -/
theorem test_table_byte_runs_in_a_pass : ∃ t, step (State.reset.withFetchWord 8 0xF0) = .next t ∧
    t.reply = .result false 0 [] ∧ t.isEmpty = true ∧ t.inbox = [] := ⟨_, rfl, rfl, rfl, rfl⟩

/-- The event a byte is placed in carries that byte first. -/
theorem test_place_byte (b : Byte) : ((State.reset.queueByte b).slotAt 0).payload.extractLsb' 0 8 = b := by
  show (0xF8F8F8#24 ++ b).extractLsb' 0 8 = b
  exact BitVec.extractLsb'_append_eq_right

/-- An event with the timestamp 0. -/
def ev (p : Payload) : RawEvent := ⟨p, 0⟩

/-- Does the command answer a next state of which this holds? -/
def gives (o : Out) (p : State → Bool) : Bool :=
  match o with
  | .next t => p t
  | .fault _ => false
  | .refused _ => false

/-- A ready ring with the indices and slots of a vector's row; slot 0 first. -/
def ring (start stop : Nat) (ps : List Payload) : State :=
  { State.reset with
    life := .ready
    start := start
    end_ := stop
    slots := ps.zipIdx.map fun x => (x.2, ev x.1) }

/-- An extractor that holds the bytes of a frame in progress. -/
def working (bs : List Byte) : State :=
  { State.reset with len := bs.length, fbuf := bs.zipIdx.map fun x => (x.2, x.1) }

/-- The result that a reply carries. -/
def resultIs (r : Reply) (found : Bool) (length : Nat) (frame : List Byte) : Bool :=
  match r with
  | .result g n f => g == found && n == length && f == frame
  | _ => false

/-- The payload of the event a reply carries. -/
def eventIs (r : Reply) (p : Payload) : Bool :=
  match r with
  | .event e => e.payload == p
  | _ => false

/-- V-R6 step 2: RB_INIT keeps the sticky fault. -/
theorem test_rbInit_keeps_fault :
    gives (rbInit { State.reset with fault := 0b01 }) (fun t => t.life == .ready && t.fault == 0b01) = true := by decide

/-- V-R6 step 4: a second RB_INIT faults. -/
theorem test_rbInit_twice : gives (rbInit (ring 0 0 [])) (fun t => t.life == .ready && t.fault == 0b01) = true := by decide

/-- R102's example: `N = 2`, start = 0, end = 2. -/
theorem test_rbIsFull : gives (rbIsFull 2 (ring 0 2 [1, 2])) (fun t => t.reply == .bit true) = true := by decide

/-- V-R1 step 6: `N = 3`, start = 3, end = 1 is not full. -/
theorem test_rbIsFull_wrapped : gives (rbIsFull 3 (ring 3 1 [5, 2, 3, 4])) (fun t => t.reply == .bit false) = true := by
  decide

/-- V-R6 step 3. -/
theorem test_rbIsEmpty : gives (rbIsEmpty (ring 0 0 [])) (fun t => t.reply == .bit true) = true := by decide

/-- V-R6 step 1: before RB_INIT. -/
theorem test_rbIsEmpty_unready : gives (rbIsEmpty State.reset) (fun t => t.fault == 0b01) = true := by decide

/-- V-R1 step 4: `N = 3`, the write evicts and `end` wraps. -/
theorem test_rbWrite_evicts : gives (rbWrite 3 (ev 4) (ring 0 3 [1, 2, 3]))
    (fun t => t.start == 1 && t.end_ == 0 && (t.contents 3).map RawEvent.payload == [2, 3, 4]) = true := by decide

/-- V-R2 step 2: the smallest ring. -/
theorem test_rbWrite_smallest : gives (rbWrite 1 (ev 2) (ring 0 1 [1]))
    (fun t => t.start == 1 && t.end_ == 0 && (t.contents 1).map RawEvent.payload == [2]) = true := by decide

/-- V-R1 step 7: `start` wraps from 3 to 0. -/
theorem test_rbRead_wraps : gives (rbRead 3 (ring 3 1 [5, 2, 3, 4])) (fun t => t.start == 0 && eventIs t.reply 4) = true := by
  decide

/-- V-R1 step 9: underflow, `fault = 0b10`, no index moves. -/
theorem test_rbRead_empty : gives (rbRead 3 (ring 1 1 [5, 2, 3, 4]))
    (fun t => t.start == 1 && t.fault == 0b10 && t.reply == .fault .underflow) = true := by decide

/-- V-R6 step 6: RB_FREE keeps `fault`. -/
theorem test_rbFree : gives (rbFree 2 { ring 0 0 [] with fault := 0b11 })
    (fun t => t.life == .uninit && t.fault == 0b11 && t.reply == .nothing) = true := by decide

/-- V-X1, `N = 8`. -/
theorem test_fxExtract_three_events : gives (fxExtract 8 (ring 0 3 [0x332211F0, 0x05107F44, 0x0000F72A]))
    (fun t => t.start == 3 && resultIs t.reply true 10 [0xF0, 0x11, 0x22, 0x33, 0x44, 0x7F, 0x10, 0x05, 0x2A, 0xF7]) =
      true := by decide

/-- V-X12, `N = 8`: `F6` abandons, the header in lane 3 restarts. -/
theorem test_fxExtract_restart : gives (fxExtract 8 (ring 0 2 [0xF0F601F0, 0x0000F77F]))
    (fun t => resultIs t.reply true 3 [0xF0, 0x7F, 0xF7]) = true := by decide

/-- V-A2. -/
theorem test_rt_in_frame : gives (rtAction (working [0xF0, 0x01])) (fun t => t.frameBytes == [0xF0, 0x01]) = true := by decide

/-- V-A5. -/
theorem test_hdr_restarts : gives (hdrAction 8 (working [0xF0, 0x01, 0x02])) (fun t => t.frameBytes == [0xF0]) = true := by
  decide

/-- V-A8. -/
theorem test_stat_abandons : gives (statAction (working [0xF0, 0x01])) (fun t => t.len == 0 && !t.done) = true := by decide

/-- V-A14. -/
theorem test_term_ends : gives (termAction 8 (working [0xF0])) (fun t => t.frameBytes == [0xF0, 0xF7] && t.done) = true := by
  decide

/-- V-A13: ignored in IDLE. -/
theorem test_term_idle : gives (termAction 8 (working [])) (fun t => t.len == 0 && !t.done) = true := by decide

/-- V-A19. -/
theorem test_data_stored : gives (dataAction 8 0x7F (working [0xF0, 0x01]))
    (fun t => t.frameBytes == [0xF0, 0x01, 0x7F] && !t.done) = true := by decide

/-- V-A17: ignored in IDLE. -/
theorem test_data_idle : gives (dataAction 8 0x7F (working [])) (fun t => t.len == 0) = true := by decide

/-! ## Witnesses: for each statement with hypotheses, a state and operands that meet them

`N` is open, so a witness holds at most one event unless it says otherwise. -/

theorem usable_pos : 0 < usable := Nat.succ_pos _

theorem frameMax_pos : 1 < frameMax usable := by have := usable_pos; unfold frameMax; omega

/-- A ready ring that holds the events of `q`. -/
def holding (q : List RawEvent) : State :=
  { State.reset with life := .ready, end_ := q.length, slots := q.zipIdx.map fun x => (x.2, x.1) }

theorem cellsGet_zipIdx (q : List RawEvent) (k i : Nat) :
    cellsGet (k + i) ((q.zipIdx k).map fun x => (x.2, x.1)) = q[i]? := by
  induction q generalizing k i with
  | nil => rfl
  | cons e q ih =>
    cases i with
    | zero => simp [List.zipIdx_cons, cellsGet]
    | succ i =>
      have h : k + (i + 1) = (k + 1) + i := by omega
      simp only [List.zipIdx_cons, List.map_cons, cellsGet, List.getElem?_cons_succ]
      rw [if_neg (by omega), h, ih]

theorem holding_inRange {q : List RawEvent} (h : q.length ≤ usable) : InRange usable (holding q) :=
  ⟨Nat.succ_pos _, Nat.lt_succ_of_le h⟩

theorem holding_contents {q : List RawEvent} (h : q.length ≤ usable) : (holding q).contents usable = q := by
  have hc : (holding q).count usable = q.length := by
    rw [(holding_inRange h).count_eq]; exact if_pos (Nat.zero_le _)
  refine List.ext_getElem (by rw [State.contents_length, hc]) fun k h1 h2 => ?_
  have hk : (0 + k) % ringSize usable = k := by
    rw [Nat.zero_add]; exact Nat.mod_eq_of_lt (Nat.lt_succ_of_lt (Nat.lt_of_lt_of_le h2 h))
  have hg := cellsGet_zipIdx q 0 k
  rw [Nat.zero_add, List.getElem?_eq_getElem h2] at hg
  simp only [State.contents, List.getElem_map, List.getElem_range]
  have hs : (holding q).slotAt ((holding q).start + k) = q[k] := by
    show (holding q).slotAt (0 + k) = q[k]
    rw [Nat.zero_add]; unfold State.slotAt
    rw [show cellsGet k (holding q).slots = some q[k] from hg]
  have : ((holding q).start + k) % ringSize usable = (holding q).start + k := by
    show (0 + k) % ringSize usable = 0 + k
    rw [hk, Nat.zero_add]
  rw [this, hs]

theorem nil_inRange : InRange usable (holding []) := holding_inRange (Nat.zero_le usable)

theorem nil_contents : (holding []).contents usable = [] := holding_contents (Nat.zero_le usable)

theorem one_inRange (e : RawEvent) : InRange usable (holding [e]) := holding_inRange (q := [e]) usable_pos

theorem one_contents (e : RawEvent) : (holding [e]).contents usable = [e] := holding_contents (q := [e]) usable_pos

/-- An extractor that has scanned a header, in the block's own state. -/
def opened : State := working [0xF0]

/-- An extractor whose frame buffer is full. -/
def filled : State := { State.reset with len := frameMax usable }

/-- An extractor that has completed a frame. -/
def completed : State := { working [0xF0, 0xF7] with done := true }

theorem witness_DecodeEncodeRoundTrip : (Instr.data 0x7F).wellFormed = true := by decide

theorem witness_DecodedWordsReencode :
    decode (.byte 0xFF) = .ok (.rt 0xFF) ∧ decode (.cmd 0b110 0) = .ok .fxExtract := ⟨rfl, rfl⟩

theorem witness_StepRunsDecodedInstruction :
    (State.reset.issue 0b000 0).inbox = .command 0b000 0 :: [] ∧ decode (.cmd 0b000 0) = .ok .rbInit := ⟨rfl, rfl⟩

theorem witness_StepTakesOneRequest : step State.reset = .next State.reset := rfl

theorem witness_IdleUntilCommand : State.reset.inbox = [] := rfl

theorem witness_HardwareResetEffect :
    ({ State.reset with inbox := [.hardwareReset] } : State).inbox = .hardwareReset :: [] := rfl

theorem witness_FaultBitsAreSticky :
    let s : State := { State.reset with fault := 0b01 }
    s.inbox.head? ≠ some .hardwareReset ∧ step s = .next s ∧ s.fault.getLsbD 0 = true := ⟨by decide, rfl, by decide⟩

theorem witness_FaultedCommandChangesNothingElse :
    (∃ t, Instr.rbRead.isCommand = true ∧ exec .rbRead State.reset = .next t ∧ t.reply = .fault .notReady) ∧
    ∃ t, exec .rbRead (holding []) = .next t ∧ t.reply = .fault .underflow := ⟨⟨_, rfl, rfl, rfl⟩, _, rfl, rfl⟩

theorem witness_WrongLifeFaultsNotReady :
    (Instr.fxExtract.isCommand = true ∧ State.reset.life ≠ (if Instr.fxExtract = .rbInit then .uninit else .ready)) ∧
    (Instr.rbInit.isCommand = true ∧ (holding []).life ≠ (if Instr.rbInit = .rbInit then .uninit else .ready)) := by
  exact ⟨⟨rfl, by simp [State.reset]⟩, rfl, by simp [holding]⟩

theorem witness_AtMostOneFaultGuardFirst :
    (∃ t, Instr.rbRead.isCommand = true ∧ exec .rbRead (holding []) = .next t) ∧ State.reset.life = .uninit :=
  ⟨⟨_, rfl, rfl⟩, rfl⟩

theorem witness_ReadEmptyUnderflows :
    ((holding []).life = .ready ∧ (holding []).end_ = (holding []).start) ∧ ∃ t, exec .fxExtract State.reset = .next t :=
  ⟨⟨rfl, rfl⟩, _, rfl⟩

theorem witness_OnlyInitAndFreeWriteLife :
    (∃ t, exec .rbInit State.reset = .next t ∧ t.life ≠ State.reset.life) ∧
    ∃ t, exec .rbFree (holding []) = .next t ∧ t.life ≠ (holding []).life := by
  exact ⟨⟨_, rfl, by decide⟩, _, rfl, nofun⟩

theorem witness_InitCreatesEmptyRing : State.reset.life = .uninit ∧ (holding []).life = .ready := ⟨rfl, rfl⟩

/-- Also of IsEmptyAnswersEmptiness, FullAndEmptyByCount, ExtractEmptiesQueue, ExtractFrame, ExtractResultShape,
CommandsRefineView. -/
theorem witness_IsFullAnswersFullness :
    ((holding [ev 1]).life = .ready ∧ InRange usable (holding [ev 1])) ∧ State.reset.life = .uninit :=
  ⟨⟨rfl, one_inRange _⟩, rfl⟩

theorem witness_IsEmptyAnswersEmptiness :
    ((holding [ev 1]).life = .ready ∧ InRange usable (holding [ev 1]) ∧ (holding [ev 1]).fault = 0b00#2) ∧
    State.reset.life = .uninit :=
  ⟨⟨rfl, one_inRange _, rfl⟩, rfl⟩

/-- The full ring with its indices at the wrap: start = 1, end = 0. -/
def full : State := { State.reset with life := .ready, start := 1, end_ := 0 }

theorem full_inRange : InRange usable full := ⟨Nat.succ_lt_succ usable_pos, Nat.succ_pos _⟩

theorem full_isFull : full.isFull usable = true := by
  simp only [State.isFull, full, beq_iff_eq]
  exact Nat.mod_eq_of_lt (Nat.succ_lt_succ usable_pos)

/-- A queue that is full and one that is not. -/
theorem witness_WriteAppends :
    (full.life = .ready ∧ InRange usable full ∧ full.isFull usable = true) ∧
    ((holding []).life = .ready ∧ InRange usable (holding []) ∧ (holding []).isEmpty = true) ∧ State.reset.life = .uninit :=
  ⟨⟨rfl, full_inRange, full_isFull⟩, ⟨rfl, nil_inRange, rfl⟩, rfl⟩

theorem witness_WriteOrdersAgree : full.life = .ready ∧ InRange usable full ∧ full.isFull usable = true :=
  ⟨rfl, full_inRange, full_isFull⟩

theorem witness_ReadReturnsOldest :
    ((holding [ev 1]).life = .ready ∧ InRange usable (holding [ev 1]) ∧ (holding [ev 1]).end_ ≠ (holding [ev 1]).start) ∧
    ((holding []).life = .ready ∧ (holding []).end_ = (holding []).start) ∧ State.reset.life = .uninit :=
  ⟨⟨rfl, one_inRange _, by decide⟩, ⟨rfl, rfl⟩, rfl⟩

theorem witness_FreeDropsRing : (holding [ev 1]).life = .ready ∧ (holding [ev 1]).fault = 0b00#2 := ⟨rfl, rfl⟩

theorem witness_FreedRingReopens : CleanReset State.reset := ⟨rfl, rfl⟩

theorem reset_inv : Inv usable State.reset where
  start_lt := Nat.succ_pos _
  end_lt := Nat.succ_pos _
  len_le := Nat.zero_le _
  slots_wf := rfl
  slots_lt := nofun
  fbuf_wf := rfl
  fbuf_lt := nofun
  live := nofun
  gone := fun _ => rfl

/-- With any list of events written; also of StepKeepsInvariant and BlockNeverStops, whose second hypothesis an empty
inbox meets. -/
theorem witness_MostRecentWritesSurvive : CleanReset State.reset ∧ Inv usable State.reset := ⟨⟨rfl, rfl⟩, reset_inv⟩

theorem witness_NextIndexIsSuccessor : 0 < ringSize usable ∧ usable < ringSize usable := ⟨Nat.succ_pos _, Nat.lt_succ_self _⟩

theorem witness_CheckedReadSucceeds :
    (holding [ev 1]).life = .ready ∧ (holding [ev 1]).fault = 0b00#2 ∧ InRange usable (holding [ev 1]) ∧
    ∃ t, exec .rbIsEmpty (holding [ev 1]) = .next t ∧ t.reply = .bit false :=
  ⟨rfl, rfl, one_inRange _, _, rfl, rfl⟩

theorem witness_RingCommandsFrame :
    (∃ t, exec .rbInit State.reset = .next t) ∧ (∃ t, exec .rbIsFull (holding []) = .next t) ∧
    (∃ t, exec .rbIsEmpty (holding []) = .next t) ∧ (∃ t, exec .rbRead (holding []) = .next t) ∧
    (∃ t, exec .rbFree (holding []) = .next t) ∧ ∃ t, exec (.rbWrite (ev 1)) (holding []) = .next t :=
  ⟨⟨_, rfl⟩, ⟨_, rfl⟩, ⟨_, rfl⟩, ⟨_, rfl⟩, ⟨_, rfl⟩, _, rbWrite_ready nil_inRange rfl (ev 1)⟩

theorem witness_RealTimeBytesSkipped : 0xF8 ≤ (0xF8 : Byte).toNat ∧ 0xF8 ≤ (0xFF : Byte).toNat := by decide

theorem witness_HeaderStartsFrame : opened.done = false ∧ State.reset.done = false ∧ completed.done = true := ⟨rfl, rfl, rfl⟩

theorem witness_StatusByteAbandons :
    (0x80 ≤ (0xEF : Byte).toNat ∧ (0xEF : Byte).toNat ≤ 0xEF) ∧ (0xF1 ≤ (0xF1 : Byte).toNat ∧ (0xF1 : Byte).toNat ≤ 0xF6) ∧
    (opened.done = false ∧ 0 < opened.len) ∧ (State.reset.done = false ∧ State.reset.len = 0) ∧ completed.done = true := by
  decide

/-- Also of ByteActionMatchesTable. -/
theorem witness_TerminatorEndsFrame :
    (opened.done = false ∧ 0 < opened.len ∧ opened.len < frameMax usable) ∧
    (State.reset.done = false ∧ State.reset.len = 0) ∧ completed.done = true :=
  ⟨⟨rfl, Nat.one_pos, frameMax_pos⟩, ⟨rfl, rfl⟩, rfl⟩

theorem witness_DataByteStored :
    (0x7F : Byte).toNat ≤ 0x7F ∧ (opened.done = false ∧ 0 < opened.len ∧ opened.len < frameMax usable) ∧
    (State.reset.done = false ∧ State.reset.len = 0) ∧ completed.done = true :=
  ⟨by decide, ⟨rfl, Nat.one_pos, frameMax_pos⟩, ⟨rfl, rfl⟩, rfl⟩

theorem witness_FullBufferStoreStops : filled.done = false ∧ 0 < filled.len ∧ frameMax usable ≤ filled.len :=
  ⟨rfl, Nat.lt_of_succ_lt frameMax_pos, Nat.le_refl _⟩

/-- The three modes, each with a byte that is executed in it. -/
theorem witness_ModeTransitions :
    (State.reset.mode = .idle ∧ ∃ t, exec (decodeByte 0x90) State.reset = .next t) ∧
    (opened.mode = .accum ∧ ∃ t, exec (decodeByte 0x90) opened = .next t) ∧
    (completed.mode = .done ∧ ∃ t, exec (decodeByte 0x90) completed = .next t) :=
  ⟨⟨rfl, _, rfl⟩, ⟨rfl, _, rfl⟩, rfl, _, rfl⟩

/-- A frame in progress and a completed one. -/
theorem witness_FrameInProgress :
    (State.reset.mode = .idle ∧ ∃ t, execAll ([0xF0].map decodeByte) State.reset = .next t ∧ t.mode = .accum) ∧
    ∃ t, execAll ([0xF0, 0xF7].map decodeByte) State.reset = .next t ∧ t.mode = .done := by
  have h1 : execHdr State.reset = .next opened :=
    fbufWrite_inRange (s := State.reset) (Nat.lt_of_succ_lt frameMax_pos) 0xF0 fun s1 => .next (s1.setLen 1)
  have h2 : execTerm opened = .next completed :=
    pushByte_inRange (s := opened) frameMax_pos 0xF7 fun s1 => .next (s1.setDone true)
  refine ⟨⟨rfl, opened, ?_, rfl⟩, completed, ?_, rfl⟩
  · show andThen (execHdr State.reset) .next = _
    rw [h1, andThen_next]
  · show andThen (execHdr State.reset) (fun s => andThen (execTerm s) .next) = _
    rw [h1, andThen_next, h2, andThen_next]

theorem witness_ByteActionsFrame :
    (∃ t, (Instr.stat 0x90).isCommand = false ∧ exec (.stat 0x90) opened = .next t) ∧
    (∃ t, exec (.rt 0xF8) opened = .next t) ∧ (∃ t, exec (.data 0x01) State.reset = .next t) ∧
    (∃ t, exec .term State.reset = .next t) ∧ ∃ t, exec .hdr completed = .next t :=
  ⟨⟨_, rfl, rfl⟩, ⟨_, rfl⟩, ⟨_, rfl⟩, ⟨_, rfl⟩, _, rfl⟩

/-- The one-event stream `F0 01 F7 00`. -/
def shortFrame : State := holding [ev 0x00F701F0]

theorem shortFrame_inRange : InRange usable shortFrame := one_inRange _

theorem shortFrame_stream : streamOf (shortFrame.contents usable) = [0xF0, 0x01, 0xF7, 0x00] := by
  rw [shortFrame, one_contents]; decide

theorem holding_nil_stream : streamOf ((holding []).contents usable) = [] := by
  rw [nil_contents]; rfl

theorem noFrame_nil : NoFrame [] := fun _ _ h => by simp [withoutRt] at h; exact absurd h.2.1 (by simp)

theorem firstFrame_short (rest : List Byte) (h : withoutRt rest = rest) :
    FirstFrame ([0xF0, 0x01, 0xF7] ++ rest) [0xF0, 0x01, 0xF7] := by
  have hw : withoutRt ([0xF0, 0x01, 0xF7] ++ rest) = 0xF0 :: 0x01 :: 0xF7 :: rest := by
    rw [withoutRt, List.filter_append]; exact congrArg ([0xF0, 0x01, 0xF7] ++ ·) h
  refine ⟨0, 2, ?_, ?_, ?_⟩ <;> rw [hw]
  · refine ⟨by omega, rfl, rfl, fun k b h1 h2 hb => ?_⟩
    obtain rfl : k = 1 := by omega
    obtain rfl : (0x01 : Byte) = b := by simpa using hb
    decide
  · intro i j h
    have hj := h.2.2.1
    match j, hj with
    | 0, hj => cases hj
    | 1, hj => cases hj
    | j + 2, _ => omega
  · rfl

theorem witness_PassRunsStreamBytes : shortFrame.life = .ready ∧ InRange usable shortFrame := ⟨rfl, shortFrame_inRange⟩

theorem witness_ExtractReturnsFirstFrame :
    (shortFrame.life = .ready ∧ InRange usable shortFrame ∧
      FirstFrame (streamOf (shortFrame.contents usable)) [0xF0, 0x01, 0xF7]) ∧
    ((holding []).life = .ready ∧ InRange usable (holding []) ∧ NoFrame (streamOf ((holding []).contents usable))) ∧
    FrameAt [0xF0, 0xF7] 0 1 := by
  refine ⟨⟨rfl, shortFrame_inRange, ?_⟩, ⟨rfl, nil_inRange, ?_⟩, by omega, rfl, rfl, fun k _ h1 h2 _ => by omega⟩
  · rw [shortFrame_stream]; exact firstFrame_short [0x00] rfl
  · rw [holding_nil_stream]; exact noFrame_nil

/-- A ready state in range; for ExtractEmptiesQueue, ExtractFrame, ExtractResultShape (found and not found),
SecondPassFindsNothing, and CommandsRefineView with its command. -/
theorem witness_ExtractEmptiesQueue : shortFrame.life = .ready ∧ InRange usable shortFrame := ⟨rfl, shortFrame_inRange⟩

theorem witness_ExtractFrame : ∃ t, exec .fxExtract shortFrame = .next t := ⟨_, fxExtract_ready shortFrame_inRange rfl⟩

theorem shortFrame_result : ∃ t, exec .fxExtract shortFrame = .next t ∧ t.reply = .result true 3 [0xF0, 0x01, 0xF7] := by
  refine ⟨_, fxExtract_ready shortFrame_inRange rfl, ?_⟩
  rw [shortFrame_stream]; decide

theorem empty_result : ∃ t, exec .fxExtract (holding []) = .next t ∧ t.reply = .result false 0 [] := by
  refine ⟨_, fxExtract_ready nil_inRange rfl, ?_⟩
  rw [holding_nil_stream]; decide

theorem witness_ExtractResultShape :
    (shortFrame.life = .ready ∧ InRange usable shortFrame) ∧
    (∃ t, exec .fxExtract shortFrame = .next t ∧ t.reply = .result true 3 [0xF0, 0x01, 0xF7]) ∧
    ((holding []).life = .ready ∧ InRange usable (holding [])) ∧
    ∃ t, exec .fxExtract (holding []) = .next t ∧ t.reply = .result false 0 [] :=
  ⟨⟨rfl, shortFrame_inRange⟩, shortFrame_result, ⟨rfl, nil_inRange⟩, empty_result⟩

/-- Two events with one payload; their timestamps are whatever the width admits. -/
theorem witness_TimestampsIgnored (ts : BitVec Config.tsW) :
    InRange usable shortFrame ∧ InRange usable (holding [⟨0x00F701F0, ts⟩]) ∧
    (shortFrame.contents usable).map RawEvent.payload =
      ((holding [⟨0x00F701F0, ts⟩]).contents usable).map RawEvent.payload := by
  refine ⟨shortFrame_inRange, one_inRange _, ?_⟩
  rw [shortFrame, one_contents, one_contents]; rfl

theorem witness_CuttingIndependence (ts : BitVec Config.tsW) :
    InRange usable shortFrame ∧ InRange usable (holding [⟨0x00F701F0, ts⟩]) ∧
    streamOf (shortFrame.contents usable) = streamOf ((holding [⟨0x00F701F0, ts⟩]).contents usable) := by
  refine ⟨shortFrame_inRange, one_inRange _, ?_⟩
  rw [shortFrame, one_contents, one_contents]; rfl

theorem witness_CompleteFrameIsFixed :
    shortFrame.life = .ready ∧ InRange usable shortFrame ∧ FirstFrame [0xF0, 0x01, 0xF7] [0xF0, 0x01, 0xF7] ∧
    streamOf (shortFrame.contents usable) = [0xF0, 0x01, 0xF7] ++ [0x00] :=
  ⟨rfl, shortFrame_inRange, firstFrame_short [] rfl, shortFrame_stream⟩

/-- Events whose stream is one frame: a header, `k` events of zeros between, and a terminator. -/
def longQueue : Nat → List RawEvent
  | 0 => [ev 0xF70000F0]
  | k + 1 => ev 0x000000F0 :: (List.replicate k (ev 0) ++ [ev 0xF7000000])

theorem longQueue_length (k : Nat) : (longQueue k).length = k + 1 := by
  cases k <;> simp [longQueue]

theorem longQueue_stream (k : Nat) :
    ∃ d, (∀ b ∈ d, classify b = .data) ∧ streamOf (longQueue k) = 0xF0#8 :: d ++ [0xF7#8] := by
  cases k with
  | zero => exact ⟨[0, 0], by decide, by decide⟩
  | succ k =>
    refine ⟨[0, 0, 0] ++ streamOf (List.replicate k (ev 0)) ++ [0, 0, 0], ?_, ?_⟩
    · intro b hb
      have : b = 0 := by
        simp only [List.mem_append, streamOf, List.mem_flatMap] at hb
        rcases hb with (hb | ⟨e, he, hb⟩) | hb
        · simpa using hb
        · obtain rfl := List.eq_of_mem_replicate he
          have h0 : eventBytes (ev 0) = [0, 0, 0, 0] := by decide
          rw [h0] at hb; simpa using hb
        · simpa using hb
      subst this; decide
    · have h1 : eventBytes (ev 0x000000F0) = [0xF0, 0, 0, 0] := by decide
      have h2 : eventBytes (ev 0xF7000000) = [0, 0, 0, 0xF7] := by decide
      simp only [longQueue, streamOf, List.flatMap_cons, List.flatMap_append, List.flatMap_nil, h1, h2]
      simp

/-- A frame of exactly `4 * N` bytes that fills the queue, whatever `N` is. -/
theorem witness_LongestFrame :
    let s := holding (longQueue (usable - 1))
    s.life = .ready ∧ InRange usable s ∧ (s.contents usable).length = usable ∧
    ∃ d, (∀ b ∈ d, classify b = .data) ∧ streamOf (s.contents usable) = 0xF0#8 :: d ++ [0xF7#8] := by
  have hl : (longQueue (usable - 1)).length = usable := by
    have := usable_pos
    rw [longQueue_length]; omega
  refine ⟨rfl, holding_inRange hl.le, ?_, ?_⟩ <;> rw [holding_contents hl.le]
  · exact hl
  · exact longQueue_stream _

/-- A queue with no header, one with no terminator, and an empty one. -/
theorem witness_NotFoundIsNormal :
    ((holding []).contents usable = [] ∧ InRange usable (holding [])) ∧
    (0xF0#8 ∉ streamOf ((holding [ev 0x0302F701]).contents usable) ∧ InRange usable (holding [ev 0x0302F701])) ∧
    (0xF7#8 ∉ streamOf ((holding [ev 0x030201F0]).contents usable) ∧ InRange usable (holding [ev 0x030201F0])) ∧
    NoFrame (streamOf ((holding []).contents usable)) := by
  refine ⟨⟨nil_contents, nil_inRange⟩, ⟨?_, one_inRange _⟩,
    ⟨?_, one_inRange _⟩, ?_⟩
  · rw [one_contents]; decide
  · rw [one_contents]; decide
  · rw [holding_nil_stream]; exact noFrame_nil

theorem witness_DrainMakesCountTurns : InRange usable shortFrame ∧ shortFrame.len = 0 := ⟨shortFrame_inRange, rfl⟩

theorem witness_SecondPassFindsNothing : shortFrame.life = .ready ∧ shortFrame.fault = 0b00#2 ∧ InRange usable shortFrame :=
  ⟨rfl, rfl, shortFrame_inRange⟩

theorem witness_FrameThenGarbage :
    shortFrame.life = .ready ∧ InRange usable shortFrame ∧ NoFrame [] ∧ (∀ b ∈ [0x01#8], classify b = .data) ∧
    streamOf (shortFrame.contents usable) = [] ++ (0xF0#8 :: [0x01#8] ++ [0xF7#8]) ++ [0x00#8] :=
  ⟨rfl, shortFrame_inRange, noFrame_nil, by decide, shortFrame_stream⟩

/-- The first clause needs one event, `F0 01 90 F7`. -/
theorem witness_StrayStatusByte :
    let s := holding [ev 0xF79001F0]
    s.life = .ready ∧ InRange usable s ∧ classify 0x90 = .stat ∧ (∀ b ∈ [0x01#8], classify b = .data) ∧
    streamOf (s.contents usable) = 0xF0#8 :: [0x01#8] ++ 0x90#8 :: [] ++ [0xF7#8] := by
  refine ⟨rfl, one_inRange _, by decide, by decide, ?_⟩
  rw [one_contents]; decide

/-- The second clause needs two events, so it says something where `N >= 2`: V-X3, `F0 01 90 02 F7 F0 03 F7`. -/
theorem witness_StrayStatusByte_later (h : 2 ≤ usable) :
    let s := holding [ev 0x029001F0, ev 0xF703F0F7]
    s.life = .ready ∧ InRange usable s ∧
    streamOf (s.contents usable) =
      (0xF0#8 :: [0x01#8] ++ 0x90#8 :: [0x02#8] ++ [0xF7#8]) ++ (0xF0#8 :: [0x03#8] ++ [0xF7#8]) ++ [] := by
  refine ⟨rfl, holding_inRange (q := [ev 0x029001F0, ev 0xF703F0F7]) h, ?_⟩
  rw [holding_contents (q := [ev 0x029001F0, ev 0xF703F0F7]) h]; decide

theorem witness_NothingSurvivesPass :
    shortFrame.life = .ready ∧ shortFrame.fault = 0b00#2 ∧ InRange usable shortFrame ∧ [ev 0x00F701F0].length ≤ usable ∧
    FirstFrame (streamOf [ev 0x00F701F0]) [0xF0, 0x01, 0xF7] ∧ NoFrame (streamOf []) :=
  ⟨rfl, rfl, shortFrame_inRange, usable_pos, firstFrame_short [0x00] rfl, noFrame_nil⟩

theorem witness_StepKeepsInvariant : Inv usable State.reset ∧ step State.reset = .next State.reset := ⟨reset_inv, rfl⟩

theorem witness_BlockNeverStops :
    Inv usable (State.reset.issue 0b000 0) ∧
    ∀ code operand rest, (State.reset.issue 0b000 0).inbox = .command code operand :: rest →
      ∃ i, decode (.cmd code operand) = .ok i := by
  refine ⟨{ reset_inv with }, fun code operand rest h => ?_⟩
  obtain ⟨⟨rfl, rfl⟩, _⟩ : (0b000#3 = code ∧ 0 = operand) ∧ [] = rest := by simpa [State.issue, State.reset] using h
  exact ⟨.rbInit, rfl⟩

theorem witness_FullAndEmptyByCount : InRange usable full ∧ full.isFull usable = true ∧ InRange usable (holding []) :=
  ⟨full_inRange, full_isFull, nil_inRange⟩

theorem witness_CommandsRefineView : Instr.fxExtract.isCommand = true ∧ InRange usable shortFrame := ⟨rfl, shortFrame_inRange⟩

/-- Two states with one view whose indices and stale slots differ. -/
theorem witness_UnspecifiedIsUnobservable :
    let s' : State := { holding [] with start := 1, end_ := 1, slots := [(0, ev 7)], len := 1 }
    (∀ i ∈ [Instr.rbIsFull, .fxExtract], i.isCommand = true) ∧ (holding []).fault = 0b00#2 ∧
    InRange usable (holding []) ∧ InRange usable s' ∧
    (holding []).view usable = s'.view usable := by
  have h1 : InRange usable { holding [] with start := 1, end_ := 1, slots := [(0, ev 7)], len := 1 } :=
    ⟨Nat.succ_lt_succ usable_pos, Nat.succ_lt_succ usable_pos⟩
  refine ⟨by decide, rfl, nil_inRange, h1, ?_⟩
  have h2 := h1.contents_empty rfl
  exact congrArg (View.mk .ready · 0) (nil_contents.trans h2.symm)

end Sys2Proof.Tests
end

section
/-!
SUPPORT. The frames a scan holds: a header, data bytes, and at the end of a complete one a terminator (30_encoding.md
R76), never longer than the bytes scanned; so the shape of the triple `FX_EXTRACT` hands back (10_state.md R35).
-/

namespace Sys2Proof

/-- Data bytes have the top bit clear (R73). -/
theorem toNat_le_of_classify_data {b : Byte} (h : classify b = .data) : b.toNat ≤ 0x7F := by
  have hmsb : b.msb = false := classify_data_lt h
  have := BitVec.toNat_lt_of_msb_false hmsb
  omega

end Sys2Proof

namespace Sys2Proof.Machine

open Sys2Proof.Config (usable frameMax lenW)

/-- A complete frame: header, data bytes, terminator (R76). -/
def IsFrame (f : List Byte) : Prop :=
  ∃ d, (∀ b ∈ d, classify b = .data) ∧ f = 0xF0#8 :: (d ++ [0xF7#8])

theorem IsFrame.two_le_length {f : List Byte} (h : IsFrame f) : 2 ≤ f.length := by
  obtain ⟨d, -, rfl⟩ := h
  simp

theorem IsFrame.head?_eq {f : List Byte} (h : IsFrame f) : f.head? = some 0xF0#8 := by
  obtain ⟨d, -, rfl⟩ := h
  rfl

theorem IsFrame.getLast?_eq {f : List Byte} (h : IsFrame f) : f.getLast? = some 0xF7#8 := by
  obtain ⟨d, -, rfl⟩ := h
  rw [← List.cons_append, List.getLast?_concat]

/-- Between its two ends a frame holds data bytes only. -/
theorem IsFrame.classify_inner {f : List Byte} (h : IsFrame f) {k : Nat} {b : Byte} (h0 : 0 < k)
    (h1 : k + 1 < f.length) (hb : f[k]? = some b) : classify b = .data := by
  obtain ⟨d, hd, rfl⟩ := h
  obtain ⟨k, rfl⟩ := Nat.exists_eq_add_of_lt h0
  have hk : k < d.length := by simpa using h1
  rw [Nat.zero_add, List.getElem?_cons_succ, List.getElem?_append_left hk] at hb
  exact hd b (List.mem_of_getElem? hb)

/-- The frame a scan holds is well formed as far as it goes (R120). -/
def Scan.WellFormed : Scan → Prop
  | .idle => True
  | .accum f => ∃ d, (∀ b ∈ d, classify b = .data) ∧ f = 0xF0#8 :: d
  | .found f => IsFrame f

/-- How many bytes of a frame a scan holds. -/
def Scan.size : Scan → Nat
  | .idle => 0
  | .accum f => f.length
  | .found f => f.length

theorem Scan.next_wellFormed {σ : Scan} (h : σ.WellFormed) (b : Byte) : (σ.next b).WellFormed := by
  cases σ with
  | idle => cases hc : classify b <;> simp [Scan.next, hc, Scan.WellFormed]
  | found f => exact h
  | accum f =>
    cases hc : classify b with
    | rt => simpa [Scan.next, hc] using h
    | hdr => simp [Scan.next, hc, Scan.WellFormed]
    | stat => simp [Scan.next, hc, Scan.WellFormed]
    | term =>
      obtain ⟨d, hd, rfl⟩ := h
      simp only [Scan.next, hc]
      exact ⟨d, hd, rfl⟩
    | data =>
      obtain ⟨d, hd, rfl⟩ := h
      have hdb : ∀ c ∈ d ++ [b], classify c = .data := List.forall_mem_append.2 ⟨hd, List.forall_mem_singleton.2 hc⟩
      simp only [Scan.next, hc]
      exact ⟨d ++ [b], hdb, rfl⟩

theorem Scan.size_next_le (σ : Scan) (b : Byte) : (σ.next b).size ≤ σ.size + 1 := by
  cases σ <;> cases hc : classify b <;> simp [Scan.next, hc, Scan.size]

theorem Scan.foldl_next_wellFormed {σ : Scan} (h : σ.WellFormed) (bs : List Byte) :
    (bs.foldl Scan.next σ).WellFormed :=
  List.foldlRecOn bs Scan.next h fun _ hσ b _ => Scan.next_wellFormed hσ b

theorem Scan.size_foldl_next_le (σ : Scan) (bs : List Byte) : (bs.foldl Scan.next σ).size ≤ σ.size + bs.length := by
  induction bs generalizing σ with
  | nil => exact Nat.le_refl _
  | cons b bs ih =>
    have h1 := ih (σ.next b)
    have h2 := σ.size_next_le b
    simp only [List.foldl_cons, List.length_cons]
    omega

theorem firstFrame_eq_some {bs f : List Byte} : firstFrame bs = some f ↔ bs.foldl Scan.next .idle = .found f := by
  unfold firstFrame
  cases bs.foldl Scan.next .idle <;> simp

theorem firstFrame_isFrame {bs f : List Byte} (h : firstFrame bs = some f) : IsFrame f := by
  have hw : (bs.foldl Scan.next .idle).WellFormed := Scan.foldl_next_wellFormed (σ := .idle) trivial bs
  rwa [firstFrame_eq_some.1 h] at hw

theorem firstFrame_length_le {bs f : List Byte} (h : firstFrame bs = some f) : f.length ≤ bs.length := by
  have hs := Scan.size_foldl_next_le .idle bs
  rw [firstFrame_eq_some.1 h] at hs
  simpa [Scan.size] using hs

theorem streamOf_length (q : List RawEvent) : (streamOf q).length = 4 * q.length := by
  induction q with
  | nil => rfl
  | cons e q ih =>
    have hcons : streamOf (e :: q) = eventBytes e ++ streamOf q := rfl
    have hfour : (eventBytes e).length = 4 := rfl
    rw [hcons, List.length_append, ih, hfour, List.length_cons]
    omega

/-- The stream of a queue fits the frame buffer (R148). -/
theorem State.stream_length_le (n : Nat) (s : State) : (streamOf (s.contents n)).length ≤ frameMax n := by
  rw [streamOf_length, State.contents_length]
  exact Nat.mul_le_mul_left 4 (State.count_le n s)

/-- The length counter counts to `FMAX` in `LEN_W` bits (R8). -/
theorem lt_two_pow_lenW {n k : Nat} (h : k ≤ frameMax n) : k < 2 ^ lenW n :=
  Nat.lt_of_succ_le ((Nat.succ_le_succ h).trans (Nat.le_pow_clog Nat.one_lt_two _))

/-- Settles O43: the frame handed back is the one the scan of the queue's stream holds, which is well formed and no longer
than that stream. -/
theorem extractResultShape : Obligations.ExtractResultShape := by
  unfold Obligations.ExtractResultShape
  intro s hl hr
  cases hf : firstFrame (streamOf (s.contents usable)) with
  | none =>
    refine ⟨_, false, 0, [], fxExtract_ready hr hl, ?_, rfl, lt_two_pow_lenW (Nat.zero_le _), fun _ => ⟨rfl, rfl⟩, nofun⟩
    simp [hf]
  | some f =>
    have hframe : IsFrame f := firstFrame_isFrame hf
    have hlen : f.length ≤ frameMax usable := (firstFrame_length_le hf).trans (s.stream_length_le usable)
    refine ⟨_, true, f.length, f, fxExtract_ready hr hl, ?_, rfl, lt_two_pow_lenW hlen, nofun, fun _ =>
      ⟨hframe.two_le_length, hlen, hframe.head?_eq, hframe.getLast?_eq, fun k b h0 h1 hb =>
        toNat_le_of_classify_data (hframe.classify_inner h0 h1 hb)⟩⟩
    simp [hf]

end Sys2Proof.Machine
end

section
/-!
SUPPORT. What executing an instruction can do when it answers a next state: one relation for the commands of the host
and one for the byte actions, each with every guard; and the statements that follow by a look at each case.
-/

namespace Sys2Proof.Machine

open Sys2Proof.Config (usable ringSize frameMax)

/-! ## Commands -/

/-- Everything a command can do in a block of `n` usable elements: fault by the life-cycle guard (R100), or have the
effect of R101 to R106 and R140. -/
inductive CommandEffect (n : Nat) : Instr → State → State → Prop
  | wrongLife {i : Instr} {s : State} (hl : s.life ≠ i.needs) : CommandEffect n i s (s.raise .notReady)
  | init {s : State} (hl : s.life = .uninit) :
      CommandEffect n .rbInit s ((((s.setStart 0).setEnd 0).setLife .ready).answer .nothing)
  | isFull {s : State} (hl : s.life = .ready) : CommandEffect n .rbIsFull s (s.answer (.bit (s.isFull n)))
  | isEmpty {s : State} (hl : s.life = .ready) : CommandEffect n .rbIsEmpty s (s.answer (.bit s.isEmpty))
  | write {s : State} {ev : RawEvent} (hl : s.life = .ready) (he : s.end_ < ringSize n) :
      CommandEffect n (.rbWrite ev) s ((evictIfFilled n (s.stored n ev)).answer .nothing)
  | readEmpty {s : State} (hl : s.life = .ready) (he : s.isEmpty = true) :
      CommandEffect n .rbRead s (s.raise .underflow)
  | read {s : State} (hl : s.life = .ready) (he : s.isEmpty = false) (hs : s.start < ringSize n) :
      CommandEffect n .rbRead s ((s.setStart (nextIndex n s.start)).answer (.event (s.slotAt s.start)))
  | free {s : State} (hl : s.life = .ready) :
      CommandEffect n .rbFree s (((s.setLife .uninit).dropRing n).answer .nothing)
  | extract {s u : State} (hl : s.life = .ready)
      (hd : drain n (ringSize n) ((s.setLen 0).setDone false) = .next u) :
      CommandEffect n .fxExtract s ((u.answer u.passResult).dropPass n)

/-- A command behind the life-cycle guard has its effect when its body has it. -/
theorem CommandEffect.of_whenLife {n : Nat} {i : Instr} {s t : State} {run : Out}
    (h : whenLife i.needs s run = .next t) (hrun : s.life = i.needs → run = .next t → CommandEffect n i s t) :
    CommandEffect n i s t := by
  rcases whenLife_eq_next.1 h with ⟨hl, hr⟩ | ⟨hl, rfl⟩
  · exact hrun hl hr
  · exact .wrongLife hl

theorem rbRead_effect {n : Nat} {s t : State} (h : rbRead n s = .next t) : CommandEffect n .rbRead s t := by
  refine .of_whenLife h fun hl hr => ?_
  split at hr
  · next he =>
    obtain rfl := Host.Outcome.next.inj hr
    exact .readEmpty hl he
  · next he =>
    obtain ⟨hs, hk⟩ := takeOldest_eq_next.1 hr
    obtain rfl := Host.Outcome.next.inj hk
    exact .read hl (by simpa using he) hs

theorem rbWrite_effect {n : Nat} {ev : RawEvent} {s t : State} (h : rbWrite n ev s = .next t) :
    CommandEffect n (.rbWrite ev) s t := by
  refine .of_whenLife h fun hl hr => ?_
  obtain ⟨he, hk⟩ := putNewest_eq_next.1 hr
  obtain rfl := Host.Outcome.next.inj hk
  exact .write hl he

theorem fxExtract_effect {n : Nat} {s t : State} (h : fxExtract n s = .next t) : CommandEffect n .fxExtract s t := by
  refine .of_whenLife h fun hl hr => ?_
  obtain ⟨u, hd, hk⟩ := andThen_eq_next.1 hr
  obtain rfl := Host.Outcome.next.inj hk
  exact .extract hl hd

theorem exec_commandEffect {i : Instr} {s t : State} (hi : i.isCommand = true) (h : exec i s = .next t) :
    CommandEffect usable i s t := by
  cases i with
  | rbInit => exact .of_whenLife h fun hl hr => Host.Outcome.next.inj hr ▸ .init hl
  | rbIsFull => exact .of_whenLife h fun hl hr => Host.Outcome.next.inj hr ▸ .isFull hl
  | rbIsEmpty => exact .of_whenLife h fun hl hr => Host.Outcome.next.inj hr ▸ .isEmpty hl
  | rbWrite ev => exact rbWrite_effect h
  | rbRead => exact rbRead_effect h
  | rbFree => exact .of_whenLife h fun hl hr => Host.Outcome.next.inj hr ▸ .free hl
  | fxExtract => exact fxExtract_effect h
  | _ => cases hi

/-- The decoder gives commands for command words (R80). -/
theorem isCommand_of_decode_cmd {code : BitVec 3} {operand : EventBits} {i : Instr}
    (h : decode (.cmd code operand) = .ok i) : i.isCommand = true := by
  simp only [decode, decodeCmd] at h
  split at h <;> cases h <;> rfl

/-- A step idles, resets the block, or has the effect of one command. -/
theorem step_effect {s t : State} (h : step s = .next t) :
    (s.inbox = [] ∧ t = s) ∨
    (∃ rest, s.inbox = .hardwareReset :: rest ∧ t = State.hardwareReset usable (s.take rest)) ∨
    ∃ i rest, CommandEffect usable i (s.take rest) t := by
  rcases step_cases h with hidle | hreset | ⟨code, operand, rest, i, -, hdec, hexec⟩
  · exact .inl hidle
  · exact .inr (.inl hreset)
  · exact .inr (.inr ⟨i, rest, exec_commandEffect (isCommand_of_decode_cmd hdec) hexec⟩)

/-- A write, with or without an eviction, changes `start`, `end` and the slots alone. -/
theorem evictIfFilled_stored_frame (n : Nat) (ev : RawEvent) (s : State) :
    evictIfFilled n (s.stored n ev) =
      { s with
        start := (evictIfFilled n (s.stored n ev)).start
        end_ := nextIndex n s.end_
        slots := cellsPut s.end_ ev s.slots } := by
  rw [evictIfFilled_frame]; rfl

/-- A pass changes `start`, the reply and the working state alone. -/
theorem pass_frame {n : Nat} {s u : State}
    (hd : drain n (ringSize n) ((s.setLen 0).setDone false) = .next u) :
    (u.answer u.passResult).dropPass n = ((s.setStart u.start).answer u.passResult).dropPass n := by
  have hp : ∀ r, (u.answer r).dropPass n = ((s.setStart u.start).answer r).dropPass n := fun r => by
    rw [drain_frame hd]; rfl
  exact hp _

/-! ## Byte actions -/

/-- Everything a byte instruction can do beside a frame buffer of `4 * n` bytes, by the columns of R122. -/
inductive ByteEffect (n : Nat) : Instr → State → State → Prop
  | skip {i : Instr} {s : State} (h : (∃ b, i = .rt b) ∨ s.mode = .done ∨ (s.mode = .idle ∧ i ≠ .hdr)) :
      ByteEffect n i s s
  | header {s : State} (hm : s.mode ≠ .done) (h0 : 0 < frameMax n) :
      ByteEffect n .hdr s ((s.putByte 0 0xF0).setLen 1)
  | abandon {s : State} {b : Byte} (hm : s.mode = .accum) : ByteEffect n (.stat b) s (s.setLen 0)
  | terminate {s : State} (hm : s.mode = .accum) (hl : s.len < frameMax n) :
      ByteEffect n .term s (((s.putByte s.len 0xF7).setLen (s.len + 1)).setDone true)
  | store {s : State} {b : Byte} (hm : s.mode = .accum) (hl : s.len < frameMax n) :
      ByteEffect n (.data b) s ((s.putByte s.len b).setLen (s.len + 1))

theorem hdrAction_effect {n : Nat} {s t : State} (h : hdrAction n s = .next t) : ByteEffect n .hdr s t := by
  unfold hdrAction at h
  cases hm : s.mode <;> simp only [hm] at h
  case done => obtain rfl := Host.Outcome.next.inj h; exact .skip (.inr (.inl hm))
  all_goals
    obtain ⟨h0, hk⟩ := fbufWrite_eq_next.1 h
    obtain rfl := Host.Outcome.next.inj hk
    exact .header (by simp [hm]) h0

theorem statAction_effect {n : Nat} {b : Byte} {s t : State} (h : statAction s = .next t) :
    ByteEffect n (.stat b) s t := by
  unfold statAction at h
  cases hm : s.mode <;> simp only [hm] at h <;> obtain rfl := Host.Outcome.next.inj h
  case idle => exact .skip (.inr (.inr ⟨hm, nofun⟩))
  case accum => exact .abandon hm
  case done => exact .skip (.inr (.inl hm))

theorem termAction_effect {n : Nat} {s t : State} (h : termAction n s = .next t) : ByteEffect n .term s t := by
  unfold termAction at h
  cases hm : s.mode <;> simp only [hm] at h
  case idle => obtain rfl := Host.Outcome.next.inj h; exact .skip (.inr (.inr ⟨hm, nofun⟩))
  case accum =>
    obtain ⟨hl, hk⟩ := pushByte_eq_next.1 h
    obtain rfl := Host.Outcome.next.inj hk
    exact .terminate hm hl
  case done => obtain rfl := Host.Outcome.next.inj h; exact .skip (.inr (.inl hm))

theorem dataAction_effect {n : Nat} {b : Byte} {s t : State} (h : dataAction n b s = .next t) :
    ByteEffect n (.data b) s t := by
  unfold dataAction at h
  cases hm : s.mode <;> simp only [hm] at h
  case idle => obtain rfl := Host.Outcome.next.inj h; exact .skip (.inr (.inr ⟨hm, nofun⟩))
  case accum =>
    obtain ⟨hl, hk⟩ := pushByte_eq_next.1 h
    obtain rfl := Host.Outcome.next.inj hk
    exact .store hm hl
  case done => obtain rfl := Host.Outcome.next.inj h; exact .skip (.inr (.inl hm))

theorem exec_byteEffect {i : Instr} {s t : State} (hi : i.isCommand = false) (h : exec i s = .next t) :
    ByteEffect usable i s t := by
  cases i with
  | data b => exact dataAction_effect h
  | stat b => exact statAction_effect h
  | hdr => exact hdrAction_effect h
  | term => exact termAction_effect h
  | rt b => exact Host.Outcome.next.inj h ▸ .skip (.inl ⟨b, rfl⟩)
  | _ => cases hi

/-- A byte instruction writes the working registers `len`, `fbuf`, `done` and nothing else. -/
theorem ByteEffect.frame {n : Nat} {i : Instr} {s t : State} (h : ByteEffect n i s t) :
    t = { s with len := t.len, fbuf := t.fbuf, done := t.done } := by
  cases h <;> rfl

theorem ByteEffect.done_eq {n : Nat} {i : Instr} {s t : State} (h : ByteEffect n i s t) (hi : i ≠ .term) :
    t.done = s.done := by
  cases h
  case terminate => exact absurd rfl hi
  all_goals rfl

/-- Where a byte instruction stores: a header at 0, a terminator or a data byte at `len`, the others nowhere. -/
def storedIndex (s : State) : Instr → Option Nat
  | .hdr => some 0
  | .term => some s.len
  | .data _ => some s.len
  | _ => none

theorem ByteEffect.fbufAt_eq {n : Nat} {i : Instr} {s t : State} (h : ByteEffect n i s t) {j : Nat}
    (hj : storedIndex s i ≠ some j) : t.fbufAt j = s.fbufAt j := by
  have hput : ∀ k b, some k ≠ some j → (s.putByte k b).fbufAt j = s.fbufAt j := fun k b hk =>
    (State.fbufAt_putByte s k j b).trans (if_neg fun e => hk (congrArg some e.symm))
  cases h with
  | skip => rfl
  | header => exact hput 0 0xF0 hj
  | abandon => rfl
  | terminate => exact hput s.len 0xF7 hj
  | @store _ b => exact hput s.len b hj

theorem ByteEffect.rt_eq {n : Nat} {b : Byte} {s t : State} (h : ByteEffect n (.rt b) s t) : t = s := by
  cases h; rfl

/-! ## What the commands write -/

/-- A command leaves `fault`, or sets one bit in it (R161). -/
theorem CommandEffect.fault_eq {n : Nat} {i : Instr} {s t : State} (h : CommandEffect n i s t) :
    t.fault = s.fault ∨ ∃ c : FaultCode, t.fault = s.fault ||| c.bit := by
  cases h with
  | wrongLife => exact .inr ⟨.notReady, rfl⟩
  | readEmpty => exact .inr ⟨.underflow, rfl⟩
  | write => left; rw [evictIfFilled_stored_frame]; rfl
  | extract _ hd => left; rw [pass_frame hd]; rfl
  | _ => exact .inl rfl

/-- Only `RB_INIT` and `RB_FREE` write `life` (R29). -/
theorem CommandEffect.life_eq {n : Nat} {i : Instr} {s t : State} (h : CommandEffect n i s t) :
    t.life = s.life ∨ (i = .rbInit ∧ t.life = .ready) ∨ (i = .rbFree ∧ t.life = .uninit) := by
  cases h with
  | init => exact .inr (.inl ⟨rfl, rfl⟩)
  | free => exact .inr (.inr ⟨rfl, rfl⟩)
  | write => left; rw [evictIfFilled_stored_frame]; rfl
  | extract _ hd => left; rw [pass_frame hd]; rfl
  | _ => exact .inl rfl

/-- The ring commands keep the working state and the inbox (R20). -/
theorem CommandEffect.working_eq {n : Nat} {i : Instr} {s t : State} (h : CommandEffect n i s t) (hi : i ≠ .fxExtract) :
    (t.len = s.len ∧ t.done = s.done ∧ t.cur = s.cur ∧ t.lane = s.lane ∧ t.inbox = s.inbox) ∧
      ∀ j, t.fbufAt j = s.fbufAt j := by
  cases h with
  | extract => exact absurd rfl hi
  | write => rw [evictIfFilled_stored_frame]; exact ⟨⟨rfl, rfl, rfl, rfl, rfl⟩, fun _ => rfl⟩
  | _ => exact ⟨⟨rfl, rfl, rfl, rfl, rfl⟩, fun _ => rfl⟩

/-- A command that is neither `RB_WRITE` nor `RB_FREE` keeps every slot. -/
theorem CommandEffect.slotAt_eq {n : Nat} {i : Instr} {s t : State} (h : CommandEffect n i s t) (hf : i ≠ .rbFree)
    (hw : ∀ ev, i ≠ .rbWrite ev) (j : Nat) : t.slotAt j = s.slotAt j := by
  cases h with
  | free => exact absurd rfl hf
  | @write _ ev => exact absurd rfl (hw ev)
  | extract _ hd => rw [pass_frame hd]; rfl
  | _ => rfl

/-- `RB_WRITE` keeps every slot but `slot[end]`, and puts the event there when it runs (R104). -/
theorem CommandEffect.slotAt_write {n : Nat} {ev : RawEvent} {s t : State} (h : CommandEffect n (.rbWrite ev) s t)
    (j : Nat) : t.slotAt j = if s.life = .ready ∧ j = s.end_ then ev else s.slotAt j := by
  cases h with
  | wrongLife hl =>
    have hl : s.life ≠ .ready := hl
    exact (if_neg fun h => hl h.1).symm
  | write hl =>
    rw [evictIfFilled_stored_frame]
    exact (s.slotAt_putSlot s.end_ j ev).trans (by simp [hl])

/-! ## The statements -/

/-- Settles O10: a step idles, or has the effect of a command, and no command clears a bit. -/
theorem faultBitsAreSticky : Obligations.FaultBitsAreSticky := by
  unfold Obligations.FaultBitsAreSticky
  intro s t k hnr hstep hk
  rcases step_effect hstep with ⟨-, rfl⟩ | ⟨rest, hin, -⟩ | ⟨i, rest, he⟩
  · exact hk
  · exact absurd (congrArg List.head? hin) hnr
  · rcases he.fault_eq with hf | ⟨c, hf⟩
    · exact hf ▸ hk
    · simp [hf, hk]

/-- Settles O15: a byte action does not write `life`, and of the commands only `RB_INIT` and `RB_FREE` do. -/
theorem onlyInitAndFreeWriteLife : Obligations.OnlyInitAndFreeWriteLife := by
  unfold Obligations.OnlyInitAndFreeWriteLife
  intro i s t h hne
  cases hi : i.isCommand with
  | false => exact absurd (by rw [(exec_byteEffect hi h).frame]) hne
  | true => exact (exec_commandEffect hi h).life_eq.resolve_left hne

/-- Settles O37: the effect of a byte instruction writes `len`, `done` and the one byte it stores. -/
theorem byteActionsFrame : Obligations.ByteActionsFrame := by
  unfold Obligations.ByteActionsFrame
  intro i s t hi h
  have he := exec_byteEffect hi h
  refine ⟨?_, fun j => ?_, he.done_eq, ?_, ?_, ?_, ?_⟩
  · rw [he.frame]; simp
  · exact State.slotAt_congr (by rw [he.frame]) (by rw [he.frame]) j
  · rintro rfl j hj
    exact he.fbufAt_eq (by simpa [storedIndex] using hj.symm)
  · rintro (rfl | ⟨b, rfl⟩) j hj <;> exact he.fbufAt_eq (by simpa [storedIndex] using hj.symm)
  · rintro ⟨b, rfl⟩ j
    exact he.fbufAt_eq nofun
  · rintro ⟨b, rfl⟩
    exact he.rt_eq

/-- Settles O42: a pass writes `start`, the reply and the working state, and the guard the reply and one fault bit. -/
theorem extractFrame : Obligations.ExtractFrame := by
  unfold Obligations.ExtractFrame
  intro s t h
  cases fxExtract_effect h with
  | wrongLife hl => exact ⟨rfl, rfl, rfl, fun h => absurd h hl, fun _ => rfl⟩
  | extract _ hd =>
    rw [pass_frame hd]
    exact ⟨rfl, rfl, rfl, fun _ => rfl, fun _ => rfl⟩

/-- Settles O27: each clause is a look at what the command's effect writes. -/
theorem ringCommandsFrame : Obligations.RingCommandsFrame := by
  unfold Obligations.RingCommandsFrame
  intro i s t hi h
  have hc : i.isCommand = true ∧ i ≠ .fxExtract := by
    rcases hi with rfl | rfl | rfl | rfl | rfl | ⟨ev, rfl⟩ <;> exact ⟨rfl, nofun⟩
  have he := exec_commandEffect hc.1 h
  obtain ⟨hwork, hfbuf⟩ := he.working_eq hc.2
  refine ⟨hwork, hfbuf, ?_, ?_, he.slotAt_eq, ?_, ?_⟩
  · rintro (rfl | rfl) <;> cases he <;> exact ⟨rfl, rfl⟩
  · rintro rfl
    cases he <;> rfl
  · rintro ev rfl j hj
    rw [he.slotAt_write, if_neg fun h => hj h.2]
  · rintro ev rfl hl
    rw [he.slotAt_write, if_pos ⟨hl, rfl⟩]

end Sys2Proof.Machine
end

section
/-!
SUPPORT. The invariant of the registers (10_state.md R20, R24, R25): it holds at reset, and every step keeps it.
-/

namespace Sys2Proof.Machine

open Sys2Proof.Config (usable ringSize frameMax)

/-- With equal indices the live window is empty. -/
theorem State.count_eq_zero (n : Nat) {s : State} (h : s.end_ = s.start) : s.count n = 0 := by
  simp [State.count, h]

/-- A block without a ring has the invariant when its other registers hold legal values. -/
theorem Inv.of_uninit {n : Nat} {s : State} (hr : InRange n s) (hlife : s.life = .uninit) (hslots : s.slots = [])
    (hlen : s.len ≤ frameMax n) (hwf : Memory.wf s.fbuf = true) (hlt : ∀ p ∈ s.fbuf, p.1 < frameMax n) : Inv n s where
  toInRange := hr
  len_le := hlen
  slots_wf := by rw [hslots]; rfl
  slots_lt := by simp [hslots]
  fbuf_wf := hwf
  fbuf_lt := hlt
  live := fun hl => by simp [hlife] at hl
  gone := fun _ => hslots

/-- Equal indices in range keep the invariant, whatever slots were written before: the window is empty. -/
theorem Inv.emptied {n i : Nat} {s : State} (h : Inv n s) (hi : i < ringSize n) {l : Life}
    (hl : l = .uninit → s.life = .uninit) : Inv n (((s.setStart i).setEnd i).setLife l) :=
  { h with
    start_lt := hi
    end_lt := hi
    live := fun _ k hk => by rw [State.count_eq_zero n rfl] at hk; omega
    gone := fun hu => h.gone (hl hu) }

/-- The oldest event leaves the window (R105, and R104's eviction). -/
theorem Inv.advance {n : Nat} {s : State} (h : Inv n s) (he : s.isEmpty = false) :
    Inv n (s.setStart (nextIndex n s.start)) :=
  { h with
    start_lt := nextIndex_lt n _
    live := fun hl k hk => by
      have hnext := h.live hl (k + 1) (by rw [h.toInRange.count_read he]; omega)
      rwa [← State.at, ← State.at_setStart_next] at hnext }

/-- A store into a ring with room: the window grows by the slot that is written (R104). -/
theorem Inv.stored {n : Nat} {s : State} (h : Inv n s) (hl : s.life = .ready) (hf : s.isFull n = false) (ev : RawEvent) :
    Inv n (s.stored n ev) :=
  { h with
    end_lt := nextIndex_lt n _
    slots_wf := Memory.wf_put _ _ h.slots_wf
    slots_lt := cellsPut_lt h.end_lt h.slots_lt
    gone := fun hu => by cases hl.symm.trans hu
    live := fun _ k hk => by
      have hget : ∀ i, (i ≠ s.end_ → (cellsGet i s.slots).isSome = true) →
          (cellsGet i (cellsPut s.end_ ev s.slots)).isSome = true := fun i hi => by
        by_cases hie : i = s.end_
        · rw [hie, cellsGet_put_same]; rfl
        · rw [cellsGet_put_other hie]; exact hi hie
      refine hget (s.at n k) fun hne => h.live hl k ?_
      rw [(h.toInRange.contents_write_room hf ev).1] at hk
      have hcount : k ≠ s.count n := fun e => hne (e ▸ h.toInRange.at_count)
      omega }

theorem Inv.write {n : Nat} (hn : 0 < n) {s : State} (h : Inv n s) (hl : s.life = .ready) (ev : RawEvent) :
    Inv n (evictIfFilled n (s.stored n ev)) := by
  rw [State.write_eq]
  by_cases hf : s.isFull n = true
  · have he : s.isEmpty = false := by
      have := h.toInRange.isFull_iff.1 hf
      rw [← Bool.not_eq_true, h.toInRange.isEmpty_iff]; omega
    rw [if_pos hf]
    exact (h.advance he).stored hl (h.toInRange.evicted_isFull hn hf) ev
  · rw [if_neg hf]
    exact h.stored hl (by simpa using hf) ev

theorem Inv.answer {n : Nat} {s : State} (h : Inv n s) (r : Reply) : Inv n (s.answer r) := { h with }

theorem Inv.raise {n : Nat} {s : State} (h : Inv n s) (c : FaultCode) : Inv n (s.raise c) := { h with }

theorem Inv.take {n : Nat} {s : State} (h : Inv n s) (rest : List Request) : Inv n (s.take rest) := { h with }

/-- The unspecified working registers hold legal values (R20). -/
theorem Inv.dropPass {n : Nat} {s : State} (h : Inv n s) : Inv n (s.dropPass n) :=
  { h with
    len_le := Nat.le_of_lt_succ (Nat.mod_lt _ (Nat.succ_pos _))
    fbuf_wf := rfl
    fbuf_lt := nofun }

theorem Inv.freed {n : Nat} {s : State} (h : Inv n s) : Inv n ((s.setLife .uninit).dropRing n) :=
  .of_uninit (State.dropRing_inRange n _) rfl rfl h.len_le h.fbuf_wf h.fbuf_lt

theorem Inv.hardwareReset {n : Nat} {s : State} (h : Inv n s) : Inv n (s.hardwareReset n) := by
  have hclear : Inv n s.clearFault := { h with }
  exact (hclear.freed.dropPass).answer .nothing

/-- After a drain of a ring in range the window is empty, and what else it wrote is the working state (R141). -/
theorem Inv.drained {n turns : Nat} {s u : State} (h : Inv n s) (hd : drain n turns s = .next u) : Inv n u := by
  have hscan := drain_scanned h.toInRange hd
  obtain ⟨hlen, hwf, hlt⟩ := hscan.keeps h.len_le h.fbuf_wf h.fbuf_lt
  have hempty : Inv n (((s.setStart s.end_).setEnd s.end_).setLife s.life) := h.emptied h.end_lt id
  rw [hscan.frame]
  exact { hempty with len_le := hlen, fbuf_wf := hwf, fbuf_lt := hlt }

/-- Every command keeps the invariant. -/
theorem CommandEffect.keeps_inv {n : Nat} (hn : 0 < n) {i : Instr} {s t : State} (h : CommandEffect n i s t)
    (hi : Inv n s) : Inv n t := by
  cases h with
  | wrongLife => exact hi.raise .notReady
  | init => exact (hi.emptied (l := .ready) (Nat.succ_pos n) nofun).answer .nothing
  | isFull => exact hi.answer _
  | isEmpty => exact hi.answer _
  | write hl => exact (hi.write hn hl _).answer .nothing
  | readEmpty => exact hi.raise .underflow
  | read _ he => exact (hi.advance he).answer _
  | free => exact hi.freed.answer .nothing
  | extract _ hd =>
    have hstart : Inv n ((s.setLen 0).setDone false) := { hi with len_le := Nat.zero_le _ }
    exact ((hstart.drained hd).answer _).dropPass

/-- Settles O55: a step idles, resets the block or has the effect of a command, and each keeps the invariant. -/
theorem stepKeepsInvariant : Obligations.StepKeepsInvariant := by
  unfold Obligations.StepKeepsInvariant
  intro s t hi hstep
  rcases step_effect hstep with ⟨-, rfl⟩ | ⟨rest, -, rfl⟩ | ⟨i, rest, he⟩
  · exact hi
  · exact (hi.take rest).hardwareReset
  · exact he.keeps_inv (Nat.succ_pos _) (hi.take rest)

/-- Settles O54: nothing is listed in either register file, and the zeros are legal values. -/
theorem resetHasInvariant : Obligations.ResetHasInvariant :=
  .of_uninit ⟨Nat.succ_pos _, Nat.succ_pos _⟩ rfl rfl (Nat.zero_le _) rfl nofun

/-- Settles O8: with nothing in the inbox the step's first branch answers the state it was given. -/
theorem idleUntilCommand : Obligations.IdleUntilCommand :=
  ⟨rfl, rfl, rfl, fun s h => by rw [step, h]⟩

end Sys2Proof.Machine
end

section
/-!
SUPPORT. The index arithmetic of the ring (00_scope.md R25, 40_ringbuffer_ops.md R107), and the end of the frame buffer
(20_memory.md R50).
-/

namespace Sys2Proof.Machine

open Sys2Proof.Config (usable ringSize frameMax)

theorem nextIndex_injOn {n i j : Nat} (hi : i < ringSize n) (hj : j < ringSize n) (h : nextIndex n i = nextIndex n j) :
    i = j := by
  rw [nextIndex_eq hi, nextIndex_eq hj] at h
  split_ifs at h <;> omega

/-- The index before one in range: the one below it, or `n` before 0. -/
theorem exists_nextIndex_eq {n j : Nat} (hj : j < ringSize n) : ∃ i, i < ringSize n ∧ nextIndex n i = j := by
  cases j with
  | zero =>
    have hn : n < ringSize n := Nat.lt_succ_self n
    exact ⟨n, hn, by rw [nextIndex_eq hn, if_pos rfl]⟩
  | succ i =>
    have hi : i < ringSize n := Nat.lt_of_succ_lt hj
    have hne : i ≠ n := by unfold ringSize at hj; omega
    exact ⟨i, hi, by rw [nextIndex_eq hi, if_neg hne]⟩

/-- Settles O25: below `N` the successor is `i + 1`, and only `N` goes to 0. -/
theorem nextIndexIsSuccessor : Obligations.NextIndexIsSuccessor := by
  unfold Obligations.NextIndexIsSuccessor
  refine ⟨fun i hi => ⟨?_, nextIndex_lt usable i⟩, fun i j => nextIndex_injOn, fun j => exists_nextIndex_eq⟩
  rw [nextIndex_eq hi]
  unfold ringSize at hi
  split_ifs <;> omega

/-- Settles O57: both conditions are told from `count`, which cannot be `N` and 0 at once. -/
theorem fullAndEmptyByCount : Obligations.FullAndEmptyByCount := by
  unfold Obligations.FullAndEmptyByCount
  intro s hr
  refine ⟨State.count_le usable s, hr.isFull_iff, hr.isEmpty_iff, fun ⟨hfull, hempty⟩ => ?_⟩
  have hpos : 0 < usable := Nat.succ_pos _
  rw [hr.isFull_iff] at hfull
  rw [hr.isEmpty_iff] at hempty
  omega

theorem pushByte_full {n : Nat} {s : State} (h : frameMax n ≤ s.len) (b : Byte) (k : State → Out) :
    pushByte n b s k = .fault .frameRange :=
  if_neg h.not_gt

/-- Settles O33: in ACCUM both instructions store at `len`. -/
theorem fullBufferStoreStops : Obligations.FullBufferStoreStops := by
  unfold Obligations.FullBufferStoreStops
  intro b s hd hl hfull
  have hm : s.mode = .accum := State.mode_accum.2 ⟨hd, hl⟩
  have hpush := pushByte_full (n := usable) hfull
  constructor
  · simp only [exec, execData, dataAction, hm, hpush]
  · simp only [exec, execTerm, termAction, hm, hpush]

end Sys2Proof.Machine
end

section
/-!
SUPPORT. The frame a scan finds is the frame of the stream that ends first (41_extractor_byte_ops.md R130): what a scan
holds is read off the positions of the stream, one byte after another.
-/

namespace Sys2Proof

/-- Only `0xF0` is a header (R73). -/
theorem eq_of_classify_hdr {b : Byte} (h : classify b = .hdr) : b = 0xF0#8 := by
  unfold classify at h
  split_ifs at h with _ h2
  exact h2

/-- Only `0xF7` is a terminator (R73). -/
theorem eq_of_classify_term {b : Byte} (h : classify b = .term) : b = 0xF7#8 := by
  unfold classify at h
  split_ifs at h with _ _ h3
  exact h3

end Sys2Proof

namespace Sys2Proof.Machine

open Sys2Proof.Config (usable frameMax)

/-! ## Real-time bytes -/

theorem Scan.next_rt (σ : Scan) {b : Byte} (h : classify b = .rt) : σ.next b = σ := by
  cases σ <;> simp [Scan.next, h]

/-- A scan does not see the real-time bytes (R123). -/
theorem foldl_next_withoutRt (σ : Scan) (bs : List Byte) :
    (withoutRt bs).foldl Scan.next σ = bs.foldl Scan.next σ := by
  induction bs generalizing σ with
  | nil => rfl
  | cons b bs ih =>
    by_cases hb : classify b = .rt
    · have hskip : withoutRt (b :: bs) = withoutRt bs := List.filter_cons_of_neg (by simp [hb])
      rw [hskip, ih, List.foldl_cons, Scan.next_rt σ hb]
    · have hkeep : withoutRt (b :: bs) = b :: withoutRt bs := List.filter_cons_of_pos (by simp [hb])
      rw [hkeep, List.foldl_cons, ih, List.foldl_cons]

/-! ## Positions of a stream that grows by one byte -/

/-- A header stands at `i`, and from there to the end of the stream only data bytes follow. -/
def OpenAt (bs : List Byte) (i : Nat) : Prop :=
  bs[i]? = some 0xF0#8 ∧ ∀ k b, i < k → bs[k]? = some b → classify b = .data

theorem getElem?_concat_eq_some {bs : List Byte} {b c : Byte} {k : Nat} :
    (bs ++ [b])[k]? = some c ↔ bs[k]? = some c ∨ (k = bs.length ∧ b = c) := by
  rcases Nat.lt_trichotomy k bs.length with h | rfl | h
  · simp [List.getElem?_append_left h, h.ne]
  · simp
  · have hout : (bs ++ [b]).length ≤ k := by simpa using h
    simp [List.getElem?_eq_none hout, h.ne', h.le]

theorem lt_length_of_getElem?_eq_some {bs : List Byte} {c : Byte} {k : Nat} (h : bs[k]? = some c) : k < bs.length :=
  (List.getElem?_eq_some_iff.1 h).1

theorem openAt_concat {bs : List Byte} {b : Byte} {i : Nat} :
    OpenAt (bs ++ [b]) i ↔ (i = bs.length ∧ b = 0xF0#8) ∨ (OpenAt bs i ∧ classify b = .data) := by
  simp only [OpenAt, getElem?_concat_eq_some]
  constructor
  · rintro ⟨hi | hnew, hdata⟩
    · have hlt := lt_length_of_getElem?_eq_some hi
      exact .inr ⟨⟨hi, fun k c hk hc => hdata k c hk (.inl hc)⟩, hdata _ b hlt (.inr ⟨rfl, rfl⟩)⟩
    · exact .inl hnew
  · rintro (⟨rfl, rfl⟩ | ⟨⟨hi, hdata⟩, hb⟩)
    · refine ⟨.inr ⟨rfl, rfl⟩, fun k c hk hc => ?_⟩
      rcases hc with hc | ⟨rfl, -⟩
      · exact absurd (lt_length_of_getElem?_eq_some hc) hk.not_gt
      · exact absurd hk (Nat.lt_irrefl _)
    · refine ⟨.inl hi, fun k c hk hc => ?_⟩
      rcases hc with hc | ⟨-, rfl⟩
      · exact hdata k c hk hc
      · exact hb

theorem frameAt_concat {bs : List Byte} {b : Byte} {i j : Nat} :
    FrameAt (bs ++ [b]) i j ↔ FrameAt bs i j ∨ (j = bs.length ∧ b = 0xF7#8 ∧ OpenAt bs i) := by
  simp only [FrameAt, OpenAt, getElem?_concat_eq_some]
  constructor
  · rintro ⟨hij, hi, hj, hdata⟩
    have hjle : j ≤ bs.length := hj.elim (fun h => (lt_length_of_getElem?_eq_some h).le) fun h => h.1.le
    have hi : bs[i]? = some 0xF0#8 := hi.resolve_right fun h => by omega
    rcases hj with hj | ⟨rfl, hb⟩
    · exact .inl ⟨hij, hi, hj, fun k c h1 h2 hc => hdata k c h1 h2 (.inl hc)⟩
    · exact .inr ⟨rfl, hb, hi, fun k c h1 hc => hdata k c h1 (lt_length_of_getElem?_eq_some hc) (.inl hc)⟩
  · rintro (⟨hij, hi, hj, hdata⟩ | ⟨rfl, hb, hi, hdata⟩)
    · have hjlt := lt_length_of_getElem?_eq_some hj
      exact ⟨hij, .inl hi, .inl hj, fun k c h1 h2 hc => hdata k c h1 h2 (hc.resolve_right fun h => by omega)⟩
    · exact ⟨lt_length_of_getElem?_eq_some hi, .inl hi, .inr ⟨rfl, hb⟩, fun k c h1 h2 hc =>
        hdata k c h1 (hc.resolve_right fun h => h2.ne h.1)⟩

/-- Two headers cannot both begin a frame that ends at `j`: the later one would be a data byte of the earlier frame. -/
theorem FrameAt.start_unique {bs : List Byte} {i i' j : Nat} (h : FrameAt bs i j) (h' : FrameAt bs i' j) : i = i' := by
  have hle : ∀ {i i' : Nat}, FrameAt bs i j → FrameAt bs i' j → ¬ i < i' := by
    rintro i i' ⟨-, -, -, hdata⟩ ⟨hlt, hhdr, -, -⟩ hii
    have hd := hdata i' _ hii hlt hhdr
    rw [classify_hdr] at hd
    cases hd
  exact Nat.le_antisymm (Nat.not_lt.1 (hle h' h)) (Nat.not_lt.1 (hle h h'))

/-- A stream has at most one first frame (R130). -/
theorem FirstFrame.unique {bs f g : List Byte} (hf : FirstFrame bs f) (hg : FirstFrame bs g) : f = g := by
  obtain ⟨i, j, hij, hmin, rfl⟩ := hf
  obtain ⟨i', j', hij', hmin', rfl⟩ := hg
  obtain rfl : j = j' := Nat.le_antisymm (hmin i' j' hij') (hmin' i j hij)
  obtain rfl : i = i' := hij.start_unique hij'
  rfl

/-! ## What a scan holds -/

/-- What a scan says of the positions of a stream without real-time bytes: in IDLE nothing is open and no frame ended; in
ACCUM the bytes from an open header on, and no frame ended; in DONE the frame that ended first (R120, R130). -/
def Scan.Describes (bs : List Byte) : Scan → Prop
  | .idle => (∀ i, ¬ OpenAt bs i) ∧ ∀ i j, ¬ FrameAt bs i j
  | .accum f => (∃ i, OpenAt bs i ∧ f = bs.drop i) ∧ ∀ i j, ¬ FrameAt bs i j
  | .found f => ∃ i j, FrameAt bs i j ∧ (∀ i' j', FrameAt bs i' j' → j ≤ j') ∧ f = (bs.drop i).take (j - i + 1)

/-- A byte that ends no frame leaves a stream without one. -/
theorem not_frameAt_concat {bs : List Byte} {b : Byte} (hno : ∀ i j, ¬ FrameAt bs i j)
    (hb : b = 0xF7#8 → ∀ i, ¬ OpenAt bs i) (i j : Nat) : ¬ FrameAt (bs ++ [b]) i j := by
  rw [frameAt_concat]
  rintro (h | ⟨-, h7, ho⟩)
  · exact hno i j h
  · exact hb h7 i ho

/-- Where no frame has ended, a header opens one at the end of the stream. -/
theorem Scan.describes_header {bs : List Byte} (hno : ∀ i j, ¬ FrameAt bs i j) :
    (Scan.accum [0xF0#8]).Describes (bs ++ [0xF0#8]) :=
  ⟨⟨bs.length, openAt_concat.2 (.inl ⟨rfl, rfl⟩), by simp⟩, not_frameAt_concat hno nofun⟩

/-- Where no frame has ended, a byte that neither opens nor ends one leaves nothing open. -/
theorem Scan.describes_idle {bs : List Byte} {b : Byte} (hno : ∀ i j, ¬ FrameAt bs i j)
    (h0 : b ≠ 0xF0#8) (hopen : ∀ i, OpenAt bs i → classify b ≠ .data ∧ b ≠ 0xF7#8) :
    Scan.idle.Describes (bs ++ [b]) := by
  refine ⟨fun i hi => ?_, not_frameAt_concat hno fun h7 i hi => (hopen i hi).2 h7⟩
  rcases openAt_concat.1 hi with ⟨-, h⟩ | ⟨hi, hd⟩
  · exact h0 h
  · exact (hopen i hi).1 hd

/-- The first frame of a stream is the first frame of every longer one (R146). -/
theorem Scan.Describes.found_concat {bs f : List Byte} (h : (Scan.found f).Describes bs) (b : Byte) :
    (Scan.found f).Describes (bs ++ [b]) := by
  obtain ⟨i, j, hij, hmin, rfl⟩ := h
  have hj : j < bs.length := lt_length_of_getElem?_eq_some hij.2.2.1
  have hi : i < j := hij.1
  refine ⟨i, j, frameAt_concat.2 (.inl hij), fun i' j' h' => ?_, ?_⟩
  · rcases frameAt_concat.1 h' with h' | ⟨rfl, -⟩
    · exact hmin i' j' h'
    · exact hj.le
  · rw [List.drop_append_of_le_length (by omega), List.take_append_of_le_length (by simp; omega)]

/-- One byte more: the transition table of R122 keeps the scan a description of the stream. -/
theorem Scan.Describes.next {bs : List Byte} {σ : Scan} (h : σ.Describes bs) {b : Byte} (hb : classify b ≠ .rt) :
    (σ.next b).Describes (bs ++ [b]) := by
  cases σ with
  | found f => exact h.found_concat b
  | idle =>
    obtain ⟨hopen, hno⟩ := h
    cases hc : classify b with
    | rt => exact absurd hc hb
    | hdr =>
      obtain rfl := eq_of_classify_hdr hc
      exact describes_header hno
    | _ =>
      have hidle : Scan.idle.next b = .idle := by simp [Scan.next, hc]
      rw [hidle]
      exact describes_idle hno (by rintro rfl; cases hc) fun i hi => absurd hi (hopen i)
  | accum f =>
    obtain ⟨⟨i, hi, rfl⟩, hno⟩ := h
    have hdrop : (bs ++ [b]).drop i = bs.drop i ++ [b] :=
      List.drop_append_of_le_length (lt_length_of_getElem?_eq_some hi.1).le
    cases hc : classify b with
    | rt => exact absurd hc hb
    | hdr =>
      obtain rfl := eq_of_classify_hdr hc
      exact describes_header hno
    | stat =>
      have hidle : (Scan.accum (bs.drop i)).next b = .idle := by simp [Scan.next, hc]
      rw [hidle]
      exact describes_idle hno (by rintro rfl; cases hc) fun _ _ => ⟨by simp [hc], by rintro rfl; cases hc⟩
    | data =>
      have hdata : (Scan.accum (bs.drop i)).next b = .accum (bs.drop i ++ [b]) := by simp [Scan.next, hc]
      rw [hdata, ← hdrop]
      exact ⟨⟨i, openAt_concat.2 (.inr ⟨hi, hc⟩), rfl⟩, not_frameAt_concat hno (by rintro rfl; cases hc)⟩
    | term =>
      obtain rfl := eq_of_classify_term hc
      have hlt : i < bs.length := lt_length_of_getElem?_eq_some hi.1
      refine ⟨i, bs.length, frameAt_concat.2 (.inr ⟨rfl, rfl, hi⟩), fun i' j' h' => ?_, ?_⟩
      · rcases frameAt_concat.1 h' with h' | ⟨rfl, -⟩
        · exact absurd h' (hno i' j')
        · exact Nat.le_refl _
      · rw [hdrop, List.take_of_length_le (by simp)]
        rfl

theorem Scan.describes_foldl {bs : List Byte} (h : ∀ b ∈ bs, classify b ≠ .rt) :
    (bs.foldl Scan.next .idle).Describes bs := by
  induction bs using List.reverseRecOn with
  | nil => exact ⟨fun i hi => by simpa using hi.1, fun i j hij => by simpa using hij.2.1⟩
  | append_singleton bs b ih =>
    obtain ⟨hbs, hb⟩ := List.forall_mem_append.1 h
    rw [List.foldl_concat]
    exact (ih hbs).next (hb b List.mem_cons_self)

theorem withoutRt_classify_ne_rt (bs : List Byte) : ∀ b ∈ withoutRt bs, classify b ≠ .rt :=
  fun b hb => by simpa using (List.mem_filter.1 hb).2

/-- The frame of the scan is the stream's first frame (R130). -/
theorem firstFrame_of_eq_some {bs f : List Byte} (h : firstFrame bs = some f) : FirstFrame bs f := by
  have hd := Scan.describes_foldl (withoutRt_classify_ne_rt bs)
  rwa [foldl_next_withoutRt, firstFrame_eq_some.1 h] at hd

/-- Where the scan finds no frame the stream completes none (R130). -/
theorem noFrame_of_eq_none {bs : List Byte} (h : firstFrame bs = none) : NoFrame bs := by
  have hd := Scan.describes_foldl (withoutRt_classify_ne_rt bs)
  rw [foldl_next_withoutRt] at hd
  cases hσ : bs.foldl Scan.next .idle with
  | found f => rw [firstFrame_eq_some.2 hσ] at h; cases h
  | idle => rw [hσ] at hd; exact hd.2
  | accum f => rw [hσ] at hd; exact hd.2

theorem NoFrame.not_firstFrame {bs f : List Byte} (h : NoFrame bs) : ¬ FirstFrame bs f :=
  fun ⟨i, j, hij, _⟩ => h i j hij

/-- `FirstFrame` and the scan's `firstFrame` are the same (R130). -/
theorem firstFrame_eq_some_iff {bs f : List Byte} : firstFrame bs = some f ↔ FirstFrame bs f := by
  refine ⟨firstFrame_of_eq_some, fun hf => ?_⟩
  cases hg : firstFrame bs with
  | none => exact absurd hf (noFrame_of_eq_none hg).not_firstFrame
  | some g => rw [hf.unique (firstFrame_of_eq_some hg)]

theorem firstFrame_eq_none_iff {bs : List Byte} : firstFrame bs = none ↔ NoFrame bs := by
  refine ⟨noFrame_of_eq_none, fun hno => ?_⟩
  cases hf : firstFrame bs with
  | none => rfl
  | some f => exact absurd (firstFrame_of_eq_some hf) hno.not_firstFrame

/-! ## Frames of one piece -/

theorem foldl_next_accum_data {d : List Byte} (hd : ∀ b ∈ d, classify b = .data) (f : List Byte) :
    d.foldl Scan.next (.accum f) = .accum (f ++ d) := by
  induction d generalizing f with
  | nil => simp
  | cons b d ih =>
    obtain ⟨hb, hd⟩ := List.forall_mem_cons.1 hd
    have hnext : (Scan.accum f).next b = .accum (f ++ [b]) := by simp [Scan.next, hb]
    rw [List.foldl_cons, hnext, ih hd, List.append_assoc, List.singleton_append]

/-- A stream that is one frame is its own first frame. -/
theorem IsFrame.firstFrame_eq {f : List Byte} (h : IsFrame f) : firstFrame f = some f := by
  obtain ⟨d, hd, rfl⟩ := h
  have hhdr : Scan.idle.next 0xF0#8 = .accum [0xF0#8] := rfl
  rw [firstFrame_eq_some, List.foldl_cons, hhdr, List.foldl_concat, foldl_next_accum_data hd]
  rfl

/-- Settles O47: a frame is no longer than the stream, and a stream that is one frame is returned whole. -/
theorem longestFrame : Obligations.LongestFrame := by
  unfold Obligations.LongestFrame
  intro s hl hr
  have hlen : (streamOf (s.contents usable)).length ≤ 4 * usable := s.stream_length_le usable
  refine ⟨hlen, _, fxExtract_ready hr hl, fun length frame hreply => ?_, fun d hcount hd hstream => ?_⟩
  · cases hf : firstFrame (streamOf (s.contents usable)) with
    | none => simp [hf] at hreply
    | some f =>
      obtain ⟨rfl, rfl⟩ : f.length = length ∧ f = frame := by simpa [hf] using hreply
      exact ⟨(firstFrame_length_le hf).trans hlen, rfl⟩
  · have hframe : IsFrame (0xF0#8 :: d ++ [0xF7#8]) := ⟨d, hd, rfl⟩
    have hwhole : (0xF0#8 :: d ++ [0xF7#8]).length = 4 * usable := by rw [← hstream, streamOf_length, hcount]
    simp only [State.dropPass_reply, State.answer_reply, hstream, hframe.firstFrame_eq, hwhole]

end Sys2Proof.Machine
end

section
/-!
SUPPORT. Every command is a function of the view `(life, q, fault)` (10_state.md R40), so what runs of commands show the
host is told from the view: the indices, stale slots and working registers are not observable (R36, R191).
-/

namespace Sys2Proof.Machine

open Sys2Proof.Config (usable)

theorem State.view_ready (n : Nat) {s : State} (h : s.life = .ready) :
    s.view n = ⟨.ready, s.contents n, s.fault⟩ := by
  simp [State.view, h]

theorem State.view_uninit (n : Nat) {s : State} (h : s.life = .uninit) : s.view n = ⟨.uninit, [], s.fault⟩ := by
  simp [State.view, h]

/-- Raising a fault on the state is raising it on the view (R161). -/
theorem State.view_raise (n : Nat) (s : State) (c : FaultCode) :
    ((s.raise c).view n, (s.raise c).reply) = (s.view n).raise c := rfl

/-- The state a command answers, its indices in range, and the abstract machine's answer seen in it (R40). -/
def Refines (n : Nat) (o : Out) (a : View × Reply) : Prop :=
  ∃ t, o = .next t ∧ InRange n t ∧ (t.view n, t.reply) = a

section Ready

variable {n : Nat} {s : State} (hr : InRange n s) (hl : s.life = .ready)

include hr hl

theorem rbIsFull_refines : Refines n (rbIsFull n s) ((s.view n).run n .rbIsFull) := by
  refine ⟨_, whenLife_same hl _, ⟨hr.start_lt, hr.end_lt⟩, ?_⟩
  have hfull : s.isFull n = ((s.contents n).length == n) := by
    rw [Bool.eq_iff_iff, hr.isFull_iff, beq_iff_eq, State.contents_length]
  rw [State.view_ready n hl, State.view_ready n (by simpa using hl), State.answer_reply, hfull]
  rfl

theorem rbIsEmpty_refines : Refines n (rbIsEmpty s) ((s.view n).run n .rbIsEmpty) := by
  refine ⟨_, whenLife_same hl _, ⟨hr.start_lt, hr.end_lt⟩, ?_⟩
  have hempty : s.isEmpty = ((s.contents n).length == 0) := by
    rw [Bool.eq_iff_iff, hr.isEmpty_iff, beq_iff_eq, State.contents_length]
  rw [State.view_ready n hl, State.view_ready n (by simpa using hl), State.answer_reply, hempty]
  rfl

theorem rbWrite_refines (hn : 0 < n) (ev : RawEvent) :
    Refines n (rbWrite n ev s) ((s.view n).run n (.rbWrite ev)) := by
  have hr' : InRange n (evictIfFilled n (s.stored n ev)) := (hr.stored ev).evict
  have hframe := evictIfFilled_stored_frame n ev s
  have hl' : (evictIfFilled n (s.stored n ev)).life = .ready := by rw [hframe]; exact hl
  have hf' : (evictIfFilled n (s.stored n ev)).fault = s.fault := by rw [hframe]
  refine ⟨_, rbWrite_ready hr hl ev, ⟨hr'.start_lt, hr'.end_lt⟩, ?_⟩
  rw [State.view_ready n hl, State.view_ready n (by simpa using hl'), State.contents_answer, hr.contents_write hn,
    State.answer_fault, hf']
  rfl

theorem rbRead_refines : Refines n (rbRead n s) ((s.view n).run n .rbRead) := by
  cases he : s.isEmpty with
  | true =>
    refine ⟨_, rbRead_empty hl he, ⟨hr.start_lt, hr.end_lt⟩, ?_⟩
    rw [State.view_raise, State.view_ready n hl, hr.contents_empty he]
    rfl
  | false =>
    refine ⟨_, rbRead_ready hr hl he, ⟨nextIndex_lt n _, hr.end_lt⟩, ?_⟩
    rw [State.view_ready n hl, State.view_ready n (by simpa using hl), hr.contents_read he]
    rfl

theorem fxExtract_refines : Refines n (fxExtract n s) ((s.view n).run n .fxExtract) := by
  have hr' : InRange n (s.setStart s.end_) := ⟨hr.end_lt, hr.end_lt⟩
  have hempty : (s.setStart s.end_).contents n = [] := hr'.contents_empty (beq_self_eq_true s.end_)
  refine ⟨_, fxExtract_ready hr hl, ⟨hr'.start_lt, hr'.end_lt⟩, ?_⟩
  have hview : ∀ r, (((s.setStart s.end_).answer r).dropPass n).view n = ⟨.ready, [], s.fault⟩ := fun r =>
    (State.view_ready n (s := ((s.setStart s.end_).answer r).dropPass n) hl).trans
      (congrArg (View.mk .ready · s.fault) hempty)
  rw [hview, State.view_ready n hl]
  rfl

end Ready

theorem rbFree_refines {n : Nat} {s : State} (hl : s.life = .ready) :
    Refines n (rbFree n s) ((s.view n).run n .rbFree) := by
  have hr' := State.dropRing_inRange n (s.setLife .uninit)
  refine ⟨_, rbFree_ready hl, ⟨hr'.start_lt, hr'.end_lt⟩, ?_⟩
  rw [State.view_uninit n rfl]
  rfl

theorem rbInit_refines {n : Nat} {s : State} (hl : s.life = .uninit) :
    Refines n (rbInit s) ((s.view n).run n .rbInit) := by
  have hr' : InRange n ((s.setStart 0).setEnd 0) := ⟨Nat.succ_pos n, Nat.succ_pos n⟩
  refine ⟨_, rbInit_uninit hl, ⟨hr'.start_lt, hr'.end_lt⟩, ?_⟩
  exact congrArg (fun q => ((⟨.ready, q, s.fault⟩ : View), Reply.nothing)) (hr'.contents_empty rfl)

theorem exec_wrongLife {i : Instr} {s : State} (hi : i.isCommand = true) (hl : s.life ≠ i.needs) :
    exec i s = .next (s.raise .notReady) := by
  cases i
  case data | stat | hdr | term | rt => cases hi
  all_goals exact whenLife_other hl _

/-- The index-level machine and the abstract one agree, command by command (R40). -/
theorem exec_refines {i : Instr} {s : State} (hi : i.isCommand = true) (hr : InRange usable s) :
    Refines usable (exec i s) ((s.view usable).exec usable i) := by
  by_cases hl : s.life = i.needs
  · have hrun : (s.view usable).exec usable i = (s.view usable).run usable i := if_pos hl
    rw [hrun]
    cases i with
    | rbInit => exact rbInit_refines hl
    | rbIsFull => exact rbIsFull_refines hr hl
    | rbIsEmpty => exact rbIsEmpty_refines hr hl
    | rbWrite ev => exact rbWrite_refines hr hl (Nat.succ_pos _) ev
    | rbRead => exact rbRead_refines hr hl
    | rbFree => exact rbFree_refines hl
    | fxExtract => exact fxExtract_refines hr hl
    | _ => cases hi
  · have hraise : (s.view usable).exec usable i = (s.view usable).raise .notReady := if_neg hl
    exact ⟨_, exec_wrongLife hi hl, ⟨hr.start_lt, hr.end_lt⟩, hraise ▸ s.view_raise usable .notReady⟩

/-- What the host observes is the reply and a part of the view (R177). -/
theorem State.observation_eq (n : Nat) (s : State) : s.observation = ⟨s.reply, (s.view n).life, (s.view n).fault⟩ := rfl

/-- Commands run to the end from any state in range, and two states with one view show the same (R36). -/
theorem observations_eq_of_view {is : List Instr} {s s' : State} (hcmd : ∀ i ∈ is, i.isCommand = true)
    (hr : InRange usable s) (hr' : InRange usable s') (hview : s.view usable = s'.view usable) :
    observations is s = observations is s' ∧ (observations is s).length = is.length := by
  induction is generalizing s s' with
  | nil => exact ⟨rfl, rfl⟩
  | cons i is ih =>
    obtain ⟨hi, his⟩ := List.forall_mem_cons.1 hcmd
    obtain ⟨t, ht, hrt, hat⟩ := exec_refines hi hr
    obtain ⟨t', ht', hrt', hat'⟩ := exec_refines hi hr'
    obtain ⟨hv, hrep⟩ := Prod.mk.inj (hat.trans (hview ▸ hat'.symm))
    have hobs : t.observation = t'.observation := by
      rw [t.observation_eq usable, t'.observation_eq usable, hv, hrep]
    obtain ⟨heq, hlen⟩ := ih his hrt hrt' hv
    exact ⟨by simp [observations, ht, ht', hobs, heq], by simp [observations, ht, hlen]⟩

/-- Settles O59: each command answers from both states, with one view and one reply. -/
theorem unspecifiedIsUnobservable : Obligations.UnspecifiedIsUnobservable :=
  fun _ _ _ hcmd _ hr hr' hview => observations_eq_of_view hcmd hr hr' hview

/-- Writes that fit append to the queue, and nothing is evicted (R104). -/
theorem execAll_writes {q ws : List RawEvent} {f : BitVec 2} {s : State} (hr : InRange usable s)
    (hv : s.view usable = ⟨.ready, q, f⟩) (hlen : q.length + ws.length ≤ usable) :
    ∃ t, execAll (ws.map .rbWrite) s = .next t ∧ InRange usable t ∧ t.view usable = ⟨.ready, q ++ ws, f⟩ := by
  induction ws generalizing q s with
  | nil => exact ⟨s, rfl, hr, by rw [hv, List.append_nil]⟩
  | cons w ws ih =>
    rw [List.length_cons] at hlen
    have hroom : q.length ≠ usable := by omega
    obtain ⟨t, ht, hrt, hat⟩ := exec_refines (i := .rbWrite w) rfl hr
    have hvt : t.view usable = ⟨.ready, q ++ [w], f⟩ := by
      have hfst : t.view usable = _ := congrArg Prod.fst hat
      rw [hfst, hv]
      simp [View.exec, View.run, Instr.needs, hroom]
    obtain ⟨u, hu, hru, hvu⟩ := ih hrt hvt (by rw [List.length_append, List.length_singleton]; omega)
    refine ⟨u, ?_, hru, by rw [hvu, List.append_assoc, List.singleton_append]⟩
    rw [List.map_cons, execAll, ht, andThen_next, hu]

/-- A pass over a ready ring, on the view (R140, R141). -/
theorem View.exec_fxExtract (n : Nat) (q : List RawEvent) (f : BitVec 2) :
    (View.mk .ready q f).exec n .fxExtract =
      (⟨.ready, [], f⟩, match firstFrame (streamOf q) with
        | some g => .result true g.length g
        | none => .result false 0 []) := rfl

/-- Settles O53: a pass leaves the view of an empty queue, the writes fill it, and the next pass answers from the view. -/
theorem nothingSurvivesPass : Obligations.NothingSurvivesPass := by
  unfold Obligations.NothingSurvivesPass
  intro s ws hl hfault hr hlen
  obtain ⟨s1, h1, hr1, ha1⟩ := exec_refines (i := .fxExtract) rfl hr
  rw [State.view_ready usable hl, View.exec_fxExtract, hfault] at ha1
  obtain ⟨t, ht, hrt, hvt⟩ := execAll_writes (ws := ws) hr1 (congrArg Prod.fst ha1) (by simpa using hlen)
  obtain ⟨u, hu, -, hau⟩ := exec_refines (i := .fxExtract) rfl hrt
  rw [hvt, View.exec_fxExtract, List.nil_append] at hau
  obtain ⟨hvu, hreply⟩ := Prod.mk.inj hau
  refine ⟨t, u, ?_, hu, congrArg View.fault hvu, fun f hf => ?_, fun hno => ?_⟩
  · rw [execAll, h1, andThen_next, ht]
  · rw [hreply, firstFrame_eq_some_iff.2 hf]
  · rw [hreply, firstFrame_eq_none_iff.2 hno]

end Sys2Proof.Machine
end

section
/-!
SUPPORT. The order of commands (20_memory.md R58, R62, R193) and of the bytes of a payload (R52).
-/

namespace Sys2Proof

/-- Commands have no ill-formed operands (R71). -/
theorem Instr.wellFormed_of_isCommand {i : Instr} (h : i.isCommand = true) : i.wellFormed = true := by
  cases i
  case data | stat | rt => cases h
  all_goals rfl

end Sys2Proof

namespace Sys2Proof.Machine

open Sys2Proof.Config (usable)

/-! ## The order of commands -/

theorem step_of_decode {s : State} {code : BitVec 3} {operand : EventBits} {rest : List Request} {i : Instr}
    (hin : s.inbox = .command code operand :: rest) (hdec : decode (.cmd code operand) = .ok i) :
    step s = exec i (s.take rest) := by
  simp only [step, hin, runRequest, runCommand, hdec]

/-- Settles O6: the decoder gives commands for command words, and these are well-formed. -/
theorem stepRunsDecodedInstruction : Obligations.StepRunsDecodedInstruction := by
  unfold Obligations.StepRunsDecodedInstruction
  intro s code operand rest i hin hdec
  have hcmd : i.isCommand = true := isCommand_of_decode_cmd hdec
  exact ⟨Instr.wellFormed_of_isCommand hcmd, hcmd, step_of_decode hin hdec⟩

/-- No command writes the inbox (log 9). -/
theorem CommandEffect.inbox_eq {n : Nat} {i : Instr} {s t : State} (h : CommandEffect n i s t) : t.inbox = s.inbox := by
  cases h with
  | write => rw [evictIfFilled_stored_frame]; rfl
  | extract _ hd => rw [pass_frame hd]; rfl
  | _ => rfl

/-- Settles O7: a step idles on an empty inbox, or takes the head and runs what does not write the inbox. -/
theorem stepTakesOneRequest : Obligations.StepTakesOneRequest := by
  unfold Obligations.StepTakesOneRequest
  intro s t hstep
  rcases step_cases hstep with ⟨hin, rfl⟩ | ⟨rest, hin, rfl⟩ | ⟨code, operand, rest, i, hin, hdec, hexec⟩
  · rw [hin, List.tail_nil]
  · rw [hin, List.tail_cons]; rfl
  · rw [hin, List.tail_cons, (exec_commandEffect (isCommand_of_decode_cmd hdec) hexec).inbox_eq]; rfl

/-- A `false` from `RB_ISEMPTY` is the condition `isEmpty` of the state, which only the answer changes (R103). -/
theorem rbIsEmpty_answers_false {s t : State} (h : rbIsEmpty s = .next t) (ht : t.reply = .bit false) :
    s.isEmpty = false ∧ t = s.answer (.bit false) := by
  rcases whenLife_eq_next.1 h with ⟨-, hrun⟩ | ⟨-, rfl⟩
  · obtain rfl := Host.Outcome.next.inj hrun
    have he : s.isEmpty = false := Reply.bit.inj ht
    exact ⟨he, by rw [he]⟩
  · cases ht

/-- Settles O26: the answer leaves the ring as it was, so the read finds an event and takes the head of `contents`. -/
theorem checkedReadSucceeds : Obligations.CheckedReadSucceeds := by
  unfold Obligations.CheckedReadSucceeds
  intro s t hl hfault hr hexec hreply
  obtain ⟨he, rfl⟩ := rbIsEmpty_answers_false hexec hreply
  have hr' : InRange usable (s.answer (.bit false)) := ⟨hr.start_lt, hr.end_lt⟩
  refine ⟨_, s.slotAt s.start, rbRead_ready hr' hl he, rfl, ?_, hfault⟩
  rw [hr.contents_read he, List.head?_cons]

/-! ## The order of bytes -/

theorem setWidth_and_byteMask (x : BitVec 32) : (x &&& 0xFF#32).setWidth 8 = x.setWidth 8 := by
  have hmask : (0xFF#32).setWidth 8 = BitVec.allOnes 8 := by decide
  rw [BitVec.setWidth_and, hmask, BitVec.and_allOnes]

theorem laneByte_eq_shift_mask (p : Payload) (k : BitVec 2) :
    laneByte p k = ((p >>> (8 * k.toNat)) &&& 0xFF#32).setWidth 8 := by
  rw [setWidth_and_byteMask, BitVec.setWidth_ushiftRight_eq_extractLsb, laneByte]

/-- Each lane begins where the one below it ends, so the four put together are the field `p[31:0]`. -/
theorem laneByte_append (p : Payload) : laneByte p 3 ++ laneByte p 2 ++ laneByte p 1 ++ laneByte p 0 = p := by
  have h32 : laneByte p 3 ++ laneByte p 2 = p.extractLsb' 16 16 :=
    BitVec.extractLsb'_append_extractLsb'_eq_extractLsb' rfl
  have h321 : p.extractLsb' 16 16 ++ laneByte p 1 = p.extractLsb' 8 24 :=
    BitVec.extractLsb'_append_extractLsb'_eq_extractLsb' rfl
  have h3210 : p.extractLsb' 8 24 ++ laneByte p 0 = p.extractLsb' 0 32 :=
    BitVec.extractLsb'_append_extractLsb'_eq_extractLsb' rfl
  rw [h32, h321, h3210, BitVec.extractLsb'_eq_self]

/-- Settles O38: each lane is a bit field of the payload, and the four fields lie side by side. -/
theorem lanesLowByteFirst : Obligations.LanesLowByteFirst :=
  ⟨laneByte_eq_shift_mask, laneByte_append, by decide⟩

end Sys2Proof.Machine
end

section
/-!
SUPPORT. The decoder and the encoder agree (30_encoding.md R71, R73, R80, R81): what the decoder answers for a byte by its
class and for a command by its code, the class of a byte by its value, and the rows of the table that a byte matches.
-/

namespace Sys2Proof

/-! ## Bytes -/

theorem decodeByte_data {b : Byte} (h : classify b = .data) : decodeByte b = .data b := by rw [decodeByte, h]

theorem decodeByte_stat {b : Byte} (h : classify b = .stat) : decodeByte b = .stat b := by rw [decodeByte, h]

theorem decodeByte_hdr {b : Byte} (h : classify b = .hdr) : decodeByte b = .hdr := by rw [decodeByte, h]

theorem decodeByte_term {b : Byte} (h : classify b = .term) : decodeByte b = .term := by rw [decodeByte, h]

theorem decodeByte_rt {b : Byte} (h : classify b = .rt) : decodeByte b = .rt b := by rw [decodeByte, h]

theorem decodeByte_wellFormed (b : Byte) : (decodeByte b).wellFormed = true := by
  cases h : classify b with
  | data => rw [decodeByte_data h, Instr.wellFormed, h]; rfl
  | stat => rw [decodeByte_stat h, Instr.wellFormed, h]; rfl
  | hdr => rw [decodeByte_hdr h, Instr.wellFormed]
  | term => rw [decodeByte_term h, Instr.wellFormed]
  | rt => rw [decodeByte_rt h, Instr.wellFormed, h]; rfl

/-- No byte is lost: `HDR` and `TERM`, which do not carry theirs, have one value each. -/
theorem encode_decodeByte (b : Byte) : encode (decodeByte b) = .byte b := by
  cases h : classify b with
  | data => rw [decodeByte_data h, encode]
  | stat => rw [decodeByte_stat h, encode]
  | hdr => rw [decodeByte_hdr h, encode, eq_of_classify_hdr h]; rfl
  | term => rw [decodeByte_term h, encode, eq_of_classify_term h]; rfl
  | rt => rw [decodeByte_rt h, encode]

/-! ## Commands -/

/-- The two fields of an EVENT operand lie side by side (R71). -/
theorem bitsOfEvent_eventOfBits (v : EventBits) : bitsOfEvent (eventOfBits v) = v := by
  have happend : v.extractLsb' 32 Config.tsW ++ v.extractLsb' 0 32 = v.extractLsb' 0 (Config.tsW + 32) :=
    BitVec.extractLsb'_append_extractLsb'_eq_extractLsb' rfl
  rw [bitsOfEvent, eventOfBits, happend, BitVec.extractLsb'_eq_self]

theorem decode_cmd_write (v : EventBits) : decode (.cmd 0b011 v) = .ok (.rbWrite (eventOfBits v)) := rfl

theorem decode_cmd_reserved (v : EventBits) : decode (.cmd 0b111 v) = .error .reservedCommand := rfl

/-- A step refuses the code in every state (R81). -/
theorem step_issue_reserved (s : Machine.State) (v : EventBits) :
    Machine.step (s.issue 0b111 v) = .refused .reservedCommand := rfl

theorem encode_ne_reserved (i : Instr) (v : EventBits) : encode i ≠ .cmd 0b111 v := by
  cases i <;> simp [encode]

/-- The code with an operand, the six without, and the reserved one (R80, R81). -/
theorem commandCode_cases : ∀ code : BitVec 3, code = 0b011 ∨
    code = 0b000 ∨ code = 0b001 ∨ code = 0b010 ∨ code = 0b100 ∨ code = 0b101 ∨ code = 0b110 ∨
    code = 0b111 := by decide

/-- A decoded command keeps its code, and `RB_WRITE` its operand (R80; log 15). -/
theorem encode_of_decode_cmd {code : BitVec 3} {v : EventBits} {i : Instr} (h : decode (.cmd code v) = .ok i) :
    ∃ u, encode i = .cmd code u ∧ (code = 0b011#3 → u = v) := by
  rcases commandCode_cases code with rfl | rfl | rfl | rfl | rfl | rfl | rfl | rfl <;> cases h
  · exact ⟨v, congrArg (Word.cmd _) (bitsOfEvent_eventOfBits v), fun _ => rfl⟩
  all_goals exact ⟨0, rfl, fun hcode => absurd hcode (by decide)⟩

/-- Settles O2: a byte of its class selects its own action, and an event is put together from its own bits. -/
theorem decodeEncodeRoundTrip : Obligations.DecodeEncodeRoundTrip := by
  unfold Obligations.DecodeEncodeRoundTrip
  intro i hwf
  cases i with
  | data b => exact congrArg Except.ok (decodeByte_data (eq_of_beq hwf))
  | stat b => exact congrArg Except.ok (decodeByte_stat (eq_of_beq hwf))
  | hdr => exact congrArg Except.ok (decodeByte_hdr classify_hdr)
  | term => exact congrArg Except.ok (decodeByte_term classify_term)
  | rt b => exact congrArg Except.ok (decodeByte_rt (eq_of_beq hwf))
  | rbWrite ev => rw [encode, decode_cmd_write, eventOfBits_bitsOfEvent]
  | rbInit | rbIsFull | rbIsEmpty | rbRead | rbFree | fxExtract => rfl

/-- Settles O3: the byte words by the class of the byte, the command words by their code. -/
theorem decodedWordsReencode : Obligations.DecodedWordsReencode := by
  unfold Obligations.DecodedWordsReencode
  intro w i hdec
  cases w with
  | byte b =>
    obtain rfl := Except.ok.inj hdec
    refine ⟨decodeByte_wellFormed b, fun c hc => ?_, nofun⟩
    rw [encode_decodeByte, hc]
  | cmd code v =>
    refine ⟨Instr.wellFormed_of_isCommand (Machine.isCommand_of_decode_cmd hdec), nofun, fun code' v' hw => ?_⟩
    obtain ⟨rfl, rfl⟩ := Word.cmd.inj hw
    exact encode_of_decode_cmd hdec

/-- Settles O1: bytes and codes by evaluation, the operand of `RB_WRITE` as the bits of its event. -/
theorem sampleWordsDecode : Obligations.SampleWordsDecode := by
  unfold Obligations.SampleWordsDecode
  exact ⟨rfl, rfl, rfl, rfl, rfl, rfl, rfl, rfl, rfl, rfl,
    fun _ => rfl, fun _ => rfl, fun _ => rfl, fun _ => rfl, fun _ => rfl, fun _ => rfl,
    fun ts => decodeEncodeRoundTrip (.rbWrite { payload := 0x332211F0, ts := ts }) rfl⟩

/-- Settles O5: the decoder has no command for the code, and the encoder gives it to none. -/
theorem reservedCodeRefused : Obligations.ReservedCodeRefused := by
  unfold Obligations.ReservedCodeRefused
  exact fun v => ⟨decode_cmd_reserved v, (step_issue_reserved · v), (encode_ne_reserved · v)⟩

/-! ## The class of a byte by its value -/

theorem getLsbD_seven_eq (b : Byte) : b.getLsbD 7 = decide (0x80 ≤ b.toNat) := BitVec.msb_eq_decide b

/-- The tests of R74 in numbers. -/
theorem classify_eq_of_toNat (b : Byte) : classify b =
    if 0xF8 ≤ b.toNat then .rt else if b.toNat = 0xF0 then .hdr else if b.toNat = 0xF7 then .term
    else if 0x80 ≤ b.toNat then .stat else .data := by
  simp only [classify, BitVec.le_def, BitVec.toNat_eq, getLsbD_seven_eq, decide_eq_true_eq]
  rfl

/-- The eleven rows checked at each of the 256 bytes (R73). -/
theorem cls_of_byteRows_hit : ∀ b : Byte, (byteRows.filter fun r => r.hits b).map ByteRow.cls = [classify b] := by decide

/-- Settles O4: the ranges are the tests of R74 in numbers; the rows and the counts are read off the 256 bytes. -/
theorem byteClassesPartition : Obligations.ByteClassesPartition := by
  unfold Obligations.ByteClassesPartition
  refine ⟨fun b => ⟨?_, ?_, ?_, ?_, ?_, cls_of_byteRows_hit b⟩, fun c => by cases c <;> rfl⟩
  all_goals
    rw [classify_eq_of_toNat]
    split_ifs <;> simp <;> omega

end Sys2Proof
end

section
/-!
SUPPORT. The RingBuffer commands one at a time (40_ringbuffer_ops.md R100 to R109): the life-cycle guard, the flags read
off the indices and off `contents`, and the next state of each command with its fields written out.
-/

namespace Sys2Proof

theorem Instr.needs_eq (i : Instr) : i.needs = if i = .rbInit then .uninit else .ready := by
  cases i <;> rfl

end Sys2Proof

namespace Sys2Proof.Machine

open Sys2Proof.Config (usable ringSize)

theorem usable_pos : 0 < usable := Nat.succ_pos _

/-! ## The life-cycle guard -/

/-- Settles O12: the guard of each command asks for the other state, and raises the fault. -/
theorem wrongLifeFaultsNotReady : Obligations.WrongLifeFaultsNotReady := by
  unfold Obligations.WrongLifeFaultsNotReady
  intro i s hi hl
  rw [← Instr.needs_eq] at hl
  exact exec_wrongLife hi hl

/-- Every command but `RB_INIT` faults while there is no ring. -/
theorem exec_uninit {i : Instr} {s : State} (hi : i.isCommand = true) (hne : i ≠ .rbInit) (hl : s.life = .uninit) :
    exec i s = .next { s with fault := s.fault ||| 0b01#2, reply := .fault .notReady } :=
  wrongLifeFaultsNotReady i s hi (by simp [hl, hne])

/-! ## The flags -/

theorem State.isFull_iff_next {n : Nat} {s : State} : s.isFull n = true ↔ (s.end_ + 1) % ringSize n = s.start :=
  beq_iff_eq

theorem State.isEmpty_iff_eq {s : State} : s.isEmpty = true ↔ s.end_ = s.start := beq_iff_eq

theorem InRange.isFull_iff_length {n : Nat} {s : State} (h : InRange n s) :
    s.isFull n = true ↔ (s.contents n).length = n := by
  rw [h.isFull_iff, State.contents_length]

theorem InRange.isEmpty_iff_length {n : Nat} {s : State} (h : InRange n s) :
    s.isEmpty = true ↔ (s.contents n).length = 0 := by
  rw [h.isEmpty_iff, State.contents_length]

theorem State.contents_length_le (n : Nat) (s : State) : (s.contents n).length ≤ n := by
  rw [State.contents_length]
  exact s.count_le n

/-- Settles O17: the reply is the condition `isFull`, which `contents` tells by its length. -/
theorem isFullAnswersFullness : Obligations.IsFullAnswersFullness := by
  unfold Obligations.IsFullAnswersFullness
  refine fun s => ⟨fun hl hr => ⟨whenLife_same hl _, ?_⟩, exec_uninit rfl nofun⟩
  rw [← State.isFull_iff_next, hr.isFull_iff_length]

theorem rbIsEmpty_of_eq {s : State} (hl : s.life = .ready) (he : s.end_ = s.start) :
    rbIsEmpty s = .next (s.answer (.bit true)) := by
  rw [rbIsEmpty, whenLife_same hl, State.isEmpty_iff_eq.2 he]

/-- Settles O18: the reply is the condition `isEmpty`, and a pass leaves `start` where `end` is. -/
theorem isEmptyAnswersEmptiness : Obligations.IsEmptyAnswersEmptiness := by
  unfold Obligations.IsEmptyAnswersEmptiness
  refine fun s => ⟨fun hl hr => ⟨whenLife_same hl _, ?_, _, fxExtract_ready hr hl, rfl, fun hfault => ?_⟩,
    exec_uninit rfl nofun⟩
  · rw [← State.isEmpty_iff_eq, hr.isEmpty_iff_length]
  · exact ⟨_, rbIsEmpty_of_eq hl rfl, rfl, hfault⟩

/-! ## Creating and destroying the ring -/

/-- Equal indices in range hold no event. -/
theorem InRange.contents_of_eq {n : Nat} {s : State} (h : InRange n s) (he : s.end_ = s.start) : s.contents n = [] :=
  h.contents_empty (State.isEmpty_iff_eq.2 he)

/-- Settles O16: with both indices 0 the queue is empty, so with `N >= 1` it is not full. -/
theorem initCreatesEmptyRing : Obligations.InitCreatesEmptyRing := by
  unfold Obligations.InitCreatesEmptyRing
  refine fun s => ⟨fun hl => ?_, fun hl => exec_wrongLife rfl (by simp [hl, Instr.needs])⟩
  have hr : InRange usable { s with life := .ready, start := 0, end_ := 0, reply := .nothing } :=
    ⟨Nat.succ_pos _, Nat.succ_pos _⟩
  have hempty := hr.contents_of_eq rfl
  refine ⟨_, rbInit_uninit hl, rfl, hempty, rfl, ?_⟩
  refine Bool.eq_false_iff.2 fun hfull => ?_
  have hlen := hr.isFull_iff_length.1 hfull
  rw [hempty, List.length_nil] at hlen
  exact usable_pos.ne hlen

/-- Settles O22: `RB_FREE` writes `life` and the ring, and `RB_INIT` sets both indices to 0 again. -/
theorem freeDropsRing : Obligations.FreeDropsRing := by
  unfold Obligations.FreeDropsRing
  intro s hl
  have hr := State.dropRing_inRange usable (s.setLife .uninit)
  refine ⟨_, rbFree_ready hl, rfl, rfl, rfl, rfl, rfl, rfl, rfl, rfl, rfl, rfl, ⟨hr.start_lt, hr.end_lt⟩, fun hfault => ?_⟩
  have hfreed : (((s.setLife .uninit).dropRing usable).answer .nothing).life = .uninit := rfl
  exact ⟨_, rbInit_uninit hfreed, rfl, InRange.contents_of_eq ⟨Nat.succ_pos _, Nat.succ_pos _⟩ rfl, hfault⟩

/-! ## Writing -/

/-- The next state of a write, field by field (R104). -/
theorem State.written_eq (n : Nat) (s : State) (ev : RawEvent) :
    (evictIfFilled n (s.stored n ev)).answer .nothing =
      { s with
        slots := cellsPut s.end_ ev s.slots
        end_ := (s.end_ + 1) % ringSize n
        start := if (s.end_ + 1) % ringSize n = s.start then (s.start + 1) % ringSize n else s.start
        reply := .nothing } := by
  have hfilled : (s.stored n ev).end_ = (s.stored n ev).start ↔ (s.end_ + 1) % ringSize n = s.start := Iff.rfl
  by_cases h : (s.end_ + 1) % ringSize n = s.start
  · rw [evictIfFilled, if_pos (hfilled.2 h), if_pos h]; rfl
  · rw [evictIfFilled, if_neg (mt hfilled.1 h), if_neg h]; rfl

/-- Settles O19: the flags are told from the length of `contents`, to which a write adds one after any eviction. -/
theorem writeAppends : Obligations.WriteAppends := by
  unfold Obligations.WriteAppends
  refine fun ev s => ⟨fun hl hr => ?_, exec_uninit rfl nofun⟩
  have hr' : InRange usable (evictIfFilled usable (s.stored usable ev)) := (hr.stored ev).evict
  have hcontents := hr.contents_write usable_pos ev
  refine ⟨_, rbWrite_ready hr hl ev, s.written_eq usable ev, hcontents, ?_, ?_⟩
  · refine Bool.eq_false_iff.2 fun hempty => ?_
    have hlen := hr'.isEmpty_iff_length.1 hempty
    rw [hcontents, List.length_append] at hlen
    exact absurd hlen (Nat.succ_ne_zero _)
  · have hle := s.contents_length_le usable
    have hpos := usable_pos
    refine hr'.isFull_iff_length.trans ?_
    rw [hcontents, List.length_append, List.length_singleton]
    split_ifs with hfull
    · rw [List.length_tail]; omega
    · omega

/-- Settles O20: evicting first is the right side of `State.write_eq`. -/
theorem writeOrdersAgree : Obligations.WriteOrdersAgree := by
  unfold Obligations.WriteOrdersAgree
  intro ev s hl hr room
  have hroom : (if s.isFull usable then s.setStart (nextIndex usable s.start) else s) = room :=
    if_congr State.isFull_iff_next rfl rfl
  refine (rbWrite_ready hr hl ev).trans ?_
  rw [State.write_eq, hroom]
  rfl

/-! ## Reading -/

/-- Settles O21: the next state's `contents` is the tail, so it is never full and is empty after the only event. -/
theorem readReturnsOldest : Obligations.ReadReturnsOldest := by
  unfold Obligations.ReadReturnsOldest
  refine fun s => ⟨fun hl hr hne => ?_, fun hl he => rbRead_empty hl (State.isEmpty_iff_eq.2 he), exec_uninit rfl nofun⟩
  have he : s.isEmpty = false := beq_false_of_ne hne
  have hr' : InRange usable (s.setStart (nextIndex usable s.start)) := ⟨nextIndex_lt usable _, hr.end_lt⟩
  have hcontents := hr.contents_read he
  have hlen := congrArg List.length hcontents
  rw [List.length_cons] at hlen
  refine ⟨_, rbRead_ready hr hl he, rfl, hcontents, ?_, ?_⟩
  · have hle := s.contents_length_le usable
    refine Bool.eq_false_iff.2 fun hfull => ?_
    have := hr'.isFull_iff_length.1 hfull
    omega
  · refine hr'.isEmpty_iff_length.trans ?_
    omega

/-! ## Draining -/

/-- A drain that answers a next state had a turn for each event (R151). -/
theorem count_le_of_drain {n turns : Nat} {s t : State} (hr : InRange n s) (h : drain n turns s = .next t) :
    s.count n ≤ turns := by
  induction turns generalizing s with
  | zero =>
    by_cases he : s.isEmpty = true
    · exact (hr.isEmpty_iff.1 he).le
    · rw [drain, if_neg he] at h; cases h
  | succ turns ih =>
    by_cases he : s.isEmpty = true
    · exact (hr.isEmpty_iff.1 he).trans_le (Nat.zero_le _)
    · rw [drain, if_neg he] at h
      obtain ⟨-, h⟩ := takeOldest_eq_next.1 h
      obtain ⟨u, hu, hd⟩ := andThen_eq_next.1 h
      have hframe := (scanEvent_scanned hu).frame
      have hru : InRange n u := by rw [hframe]; exact ⟨nextIndex_lt n _, hr.end_lt⟩
      have hcu : u.count n = (s.setStart (nextIndex n s.start)).count n := by rw [hframe]; rfl
      rw [hr.count_read (by simpa using he), ← hcu]
      exact Nat.succ_le_succ (ih hru hd)

/-- Settles O49: fewer turns than events do not complete, and with `len` 0 the bytes of `count` events fit. -/
theorem drainMakesCountTurns : Obligations.DrainMakesCountTurns := by
  unfold Obligations.DrainMakesCountTurns
  intro s turns hr hlen
  have hle := s.count_le usable
  have hroom : s.len + 4 * s.count usable ≤ Config.frameMax usable := by
    unfold Config.frameMax
    omega
  exact ⟨hle, fun ⟨_, hd⟩ => count_le_of_drain hr hd, fun hturns => drain_completes hr hturns hroom⟩

end Sys2Proof.Machine
end

section
/-!
SUPPORT. Sequences of RingBuffer commands on the view `(life, q, fault)` (10_state.md R40): writes keep the most recent
events (40_ringbuffer_ops.md R110), and reads hand the queue back in order.
-/

namespace Sys2Proof.Machine

open Sys2Proof.Config (usable)

/-- Settles O58: the simulation lemma of the view, command by command. -/
theorem commandsRefineView : Obligations.CommandsRefineView :=
  fun _ _ hi hr => exec_refines hi hr

/-- What a command does to a state whose view is known. -/
theorem exec_of_view {i : Instr} {s : State} {v : View} (hi : i.isCommand = true) (hr : InRange usable s)
    (hv : s.view usable = v) :
    ∃ t, exec i s = .next t ∧ InRange usable t ∧ t.view usable = (v.exec usable i).1 ∧
      t.reply = (v.exec usable i).2 := by
  obtain ⟨t, ht, hrt, ha⟩ := exec_refines hi hr
  rw [hv] at ha
  exact ⟨t, ht, hrt, congrArg Prod.fst ha, congrArg Prod.snd ha⟩

theorem execAll_cons {i : Instr} {s t : State} (h : exec i s = .next t) (is : List Instr) :
    execAll (i :: is) s = execAll is t := by
  rw [execAll, h, andThen_next]

theorem observations_cons {i : Instr} {s t : State} (h : exec i s = .next t) (is : List Instr) :
    observations (i :: is) s = t.observation :: observations is t := by
  rw [observations, h]

theorem cleanReady_of_view {n : Nat} {q : List RawEvent} {s : State} (h : s.view n = ⟨.ready, q, 0⟩) :
    CleanReady n q s := by
  obtain ⟨hl, hq, hf⟩ := View.mk.inj h
  rw [hl] at hq
  exact ⟨hl, hf, hq⟩

/-- `RB_INIT` in a clean UNINIT state (R101). -/
theorem exec_rbInit_of_cleanReset {s : State} (h : CleanReset s) :
    ∃ t, exec .rbInit s = .next t ∧ InRange usable t ∧ t.view usable = ⟨.ready, [], 0⟩ := by
  obtain ⟨hl, hf⟩ := h
  obtain ⟨t, ht, hrt, ha⟩ := rbInit_refines (n := usable) hl
  rw [State.view_uninit usable hl, hf] at ha
  exact ⟨t, ht, hrt, congrArg Prod.fst ha⟩

/-- Settles O23: the views of the four commands, one after another. -/
theorem freedRingReopens : Obligations.FreedRingReopens := by
  unfold Obligations.FreedRingReopens
  intro s hs
  obtain ⟨t1, h1, hr1, hv1⟩ := exec_rbInit_of_cleanReset hs
  obtain ⟨t2, h2, hr2, hv2, -⟩ := exec_of_view (i := .rbFree) rfl hr1 hv1
  obtain ⟨t3, h3, hr3, hv3, -⟩ := exec_of_view (i := .rbInit) rfl hr2 hv2
  obtain ⟨t4, h4, -, hv4, hreply⟩ := exec_of_view (i := .rbIsEmpty) rfl hr3 hv3
  refine ⟨t4, ?_, hreply, cleanReady_of_view hv4⟩
  rw [execAll_cons h1, execAll_cons h2, execAll_cons h3, execAll_cons h4, execAll]

/-! ## Writes -/

/-- The most recent `n` of a list of events. -/
def lastEvents (n : Nat) (q : List RawEvent) : List RawEvent := q.drop (q.length - n)

theorem lastEvents_of_length_le {n : Nat} {q : List RawEvent} (h : q.length ≤ n) : lastEvents n q = q := by
  rw [lastEvents, Nat.sub_eq_zero_of_le h, List.drop_zero]

theorem lastEvents_length (n : Nat) (q : List RawEvent) : (lastEvents n q).length = min q.length n := by
  rw [lastEvents, List.length_drop]
  omega

/-- Events dropped on the way do not matter for the last `n` in the end. -/
theorem lastEvents_append (n : Nat) (q ws : List RawEvent) :
    lastEvents n (lastEvents n q ++ ws) = lastEvents n (q ++ ws) := by
  have hdrop : q.drop (q.length - n) ++ ws = (q ++ ws).drop (q.length - n) :=
    (List.drop_append_of_le_length (Nat.sub_le _ _)).symm
  simp only [lastEvents, hdrop, List.drop_drop, List.length_drop, List.length_append]
  congr 1
  omega

/-- A write on the view keeps the last `n` events (R104). -/
theorem View.exec_rbWrite {n : Nat} (hn : 0 < n) {q : List RawEvent} (hq : q.length ≤ n) (f : BitVec 2)
    (ev : RawEvent) : ((View.mk .ready q f).exec n (.rbWrite ev)).1 = ⟨.ready, lastEvents n (q ++ [ev]), f⟩ := by
  have hlast : (if q.length = n then q.tail else q) ++ [ev] = lastEvents n (q ++ [ev]) := by
    split_ifs with hfull
    · have hone : (q ++ [ev]).length - n = 1 := by rw [List.length_append, List.length_singleton]; omega
      rw [lastEvents, hone, List.drop_append_of_le_length (by omega), List.drop_one]
    · have hroom : (q ++ [ev]).length ≤ n := by rw [List.length_append, List.length_singleton]; omega
      rw [lastEvents_of_length_le hroom]
  exact congrArg (View.mk .ready · f) hlast

/-- Any number of writes: the queue is the last `N` of what it held and what was written. -/
theorem execAll_writes_lastEvents {q ws : List RawEvent} {f : BitVec 2} {s : State} (hi : Inv usable s)
    (hq : q.length ≤ usable) (hv : s.view usable = ⟨.ready, q, f⟩) :
    ∃ t, execAll (ws.map .rbWrite) s = .next t ∧ Inv usable t ∧
      t.view usable = ⟨.ready, lastEvents usable (q ++ ws), f⟩ := by
  induction ws generalizing q s with
  | nil => exact ⟨s, rfl, hi, by rw [List.append_nil, lastEvents_of_length_le hq, hv]⟩
  | cons w ws ih =>
    obtain ⟨t, ht, -, hvt, -⟩ := exec_of_view (i := .rbWrite w) rfl hi.toInRange hv
    rw [View.exec_rbWrite usable_pos hq] at hvt
    have hit : Inv usable t := (exec_commandEffect rfl ht).keeps_inv usable_pos hi
    have hqt : (lastEvents usable (q ++ [w])).length ≤ usable := by rw [lastEvents_length]; exact Nat.min_le_right _ _
    obtain ⟨u, hu, hiu, hvu⟩ := ih hit hqt hvt
    rw [lastEvents_append, List.append_assoc, List.singleton_append] at hvu
    exact ⟨u, by rw [List.map_cons, execAll_cons ht, hu], hiu, hvu⟩

/-! ## Reads -/

/-- As many reads as there are events hand the queue back in order and empty it (R105). -/
theorem execAll_reads {q : List RawEvent} {f : BitVec 2} {s : State} (hr : InRange usable s)
    (hv : s.view usable = ⟨.ready, q, f⟩) :
    ∃ t, execAll (List.replicate q.length .rbRead) s = .next t ∧ t.view usable = ⟨.ready, [], f⟩ ∧
      (observations (List.replicate q.length .rbRead) s).map Observation.reply = q.map .event := by
  induction q generalizing s with
  | nil => exact ⟨s, rfl, hv, rfl⟩
  | cons e q ih =>
    obtain ⟨t, ht, hrt, hvt, hreply⟩ := exec_of_view (i := .rbRead) rfl hr hv
    have hreply : t.observation.reply = .event e := hreply
    obtain ⟨u, hu, hvu, hobs⟩ := ih hrt hvt
    rw [List.length_cons, List.replicate_succ]
    refine ⟨u, by rw [execAll_cons ht, hu], hvu, ?_⟩
    rw [observations_cons ht, List.map_cons, List.map_cons, hobs, hreply]

/-- Settles O24: after `RB_INIT` the queue is empty, so the writes leave their own last `N`, which the reads hand back. -/
theorem mostRecentWritesSurvive : Obligations.MostRecentWritesSurvive := by
  unfold Obligations.MostRecentWritesSurvive
  intro s ws hs hi
  have hlast : ws.drop (ws.length - min ws.length usable) = lastEvents usable ws := by rw [tsub_min, lastEvents]
  rw [hlast, ← lastEvents_length]
  obtain ⟨s1, h1, -, hv1⟩ := exec_rbInit_of_cleanReset hs
  have hi1 : Inv usable s1 := (exec_commandEffect rfl h1).keeps_inv usable_pos hi
  obtain ⟨t, ht, hit, hvt⟩ := execAll_writes_lastEvents (ws := ws) hi1 (Nat.zero_le _) hv1
  rw [List.nil_append] at hvt
  obtain ⟨u, hu, hvu, hobs⟩ := execAll_reads hit.toInRange hvt
  refine ⟨t, u, ?_, cleanReady_of_view hvt, hit.slots_lt, hu, cleanReady_of_view hvu, hobs⟩
  rw [execAll_cons h1, ht]

end Sys2Proof.Machine
end

section
/-!
SUPPORT. The byte instructions one at a time (41_extractor_byte_ops.md R121 to R128): what each answers in each mode, with
the fields of the next state written out, and the table of R122 put together from them.
-/

namespace Sys2Proof.Machine

open Sys2Proof.Config (usable frameMax)

/-! ## What each action answers -/

/-- Executing the instruction a byte decodes to is the action of its class (R121). -/
theorem exec_decodeByte (b : Byte) (s : State) : exec (decodeByte b) s = byteAction usable b s := by
  cases h : classify b with
  | data => rw [decodeByte_data h, byteAction, h]; rfl
  | stat => rw [decodeByte_stat h, byteAction, h]; rfl
  | hdr => rw [decodeByte_hdr h, byteAction, h]; rfl
  | term => rw [decodeByte_term h, byteAction, h]; rfl
  | rt => rw [decodeByte_rt h, byteAction, h]; rfl

theorem State.mode_ne_accum {s : State} : s.mode ≠ .accum ↔ s.done = true ∨ s.len = 0 := by
  rw [Ne, State.mode_accum]
  cases s.done <;> simp

section Actions

variable {n : Nat} {s : State}

theorem hdrAction_done (h : s.done = true) : hdrAction n s = .next s := by
  rw [hdrAction, State.mode_done.2 h]

theorem hdrAction_open (h : s.done = false) (h0 : 0 < frameMax n) :
    hdrAction n s = .next ((s.putByte 0 0xF0).setLen 1) := by
  have hne : s.mode ≠ .done := fun hm => by simp [State.mode_done.1 hm] at h
  cases hm : s.mode with
  | done => exact absurd hm hne
  | idle | accum => rw [hdrAction, hm]; exact fbufWrite_inRange h0 _ _

theorem statAction_accum (h : s.mode = .accum) : statAction s = .next (s.setLen 0) := by rw [statAction, h]

theorem statAction_skip (h : s.mode ≠ .accum) : statAction s = .next s := by
  cases hm : s.mode with
  | accum => exact absurd hm h
  | idle | done => rw [statAction, hm]

theorem termAction_accum (h : s.mode = .accum) (hl : s.len < frameMax n) :
    termAction n s = .next (((s.putByte s.len 0xF7).setLen (s.len + 1)).setDone true) := by
  rw [termAction, h]
  exact pushByte_inRange hl _ _

theorem termAction_skip (h : s.mode ≠ .accum) : termAction n s = .next s := by
  cases hm : s.mode with
  | accum => exact absurd hm h
  | idle | done => rw [termAction, hm]

theorem dataAction_accum (h : s.mode = .accum) (hl : s.len < frameMax n) (b : Byte) :
    dataAction n b s = .next ((s.putByte s.len b).setLen (s.len + 1)) := by
  rw [dataAction, h]
  exact pushByte_inRange hl _ _

theorem dataAction_skip (h : s.mode ≠ .accum) (b : Byte) : dataAction n b s = .next s := by
  cases hm : s.mode with
  | accum => exact absurd hm h
  | idle | done => rw [dataAction, hm]

/-- After a frame is complete no byte does anything (R144). -/
theorem byteAction_done (h : s.done = true) (b : Byte) : byteAction n b s = .next s := by
  have hm : s.mode ≠ .accum := State.mode_ne_accum.2 (.inl h)
  unfold byteAction
  cases classify b with
  | rt => rfl
  | hdr => exact hdrAction_done h
  | stat => exact statAction_skip hm
  | term => exact termAction_skip hm
  | data => exact dataAction_skip hm b

end Actions

/-! ## The statements, class by class -/

/-- Settles O28: the action of the class is the identity. -/
theorem realTimeBytesSkipped : Obligations.RealTimeBytesSkipped := by
  unfold Obligations.RealTimeBytesSkipped
  intro b s hb
  exact ⟨congrArg Except.ok (decodeByte_rt (classify_rt hb)), rfl⟩

/-- Settles O29: IDLE and ACCUM are the modes with `done` 0, and the frame buffer has a byte 0. -/
theorem headerStartsFrame : Obligations.HeaderStartsFrame := by
  unfold Obligations.HeaderStartsFrame
  have h0 : 0 < frameMax usable := Nat.mul_pos (Nat.succ_pos 3) usable_pos
  exact ⟨congrArg Except.ok (decodeByte_hdr classify_hdr), fun s =>
    ⟨fun hd => ⟨_, hdrAction_open hd h0, rfl, s.frameBytes_header⟩, hdrAction_done⟩⟩

/-- Settles O30: the two ranges are the class of `STAT`, whose action does something in ACCUM only. -/
theorem statusByteAbandons : Obligations.StatusByteAbandons := by
  unfold Obligations.StatusByteAbandons
  intro b s hb
  have hc : classify b = .stat := (byteClassesPartition.1 b).2.1.2 hb
  exact ⟨congrArg Except.ok (decodeByte_stat hc), fun hd hl => statAction_accum (State.mode_accum.2 ⟨hd, hl⟩),
    fun _ hl => statAction_skip (State.mode_ne_accum.2 (.inr hl)),
    fun hd => statAction_skip (State.mode_ne_accum.2 (.inl hd))⟩

/-- Settles O31: in ACCUM the terminator is pushed like a data byte, and `done` is set, which touches no byte. -/
theorem terminatorEndsFrame : Obligations.TerminatorEndsFrame := by
  unfold Obligations.TerminatorEndsFrame
  exact ⟨congrArg Except.ok (decodeByte_term classify_term), fun s =>
    ⟨fun hd hl hroom => ⟨_, termAction_accum (State.mode_accum.2 ⟨hd, hl⟩) hroom, rfl, s.frameBytes_push 0xF7⟩,
      fun _ hl => termAction_skip (State.mode_ne_accum.2 (.inr hl)),
      fun hd => termAction_skip (State.mode_ne_accum.2 (.inl hd))⟩⟩

/-- Settles O32: the range is the class of `DATA`, whose action pushes the byte in ACCUM and does nothing otherwise. -/
theorem dataByteStored : Obligations.DataByteStored := by
  unfold Obligations.DataByteStored
  intro b s hb
  have hc : classify b = .data := (byteClassesPartition.1 b).1.2 hb
  exact ⟨congrArg Except.ok (decodeByte_data hc),
    fun hd hl hroom => ⟨_, dataAction_accum (State.mode_accum.2 ⟨hd, hl⟩) hroom b, rfl, s.frameBytes_push b⟩,
    fun _ hl => dataAction_skip (State.mode_ne_accum.2 (.inr hl)) b,
    fun hd => dataAction_skip (State.mode_ne_accum.2 (.inl hd)) b⟩

/-- Settles O39: `scanLane` loads `lane`, which leaves `cur`, and takes the action of that lane's byte. -/
theorem laneScanRunsByteAction : Obligations.LaneScanRunsByteAction :=
  fun k s => (exec_decodeByte (laneByte s.cur k) (s.setLane k)).symm

/-! ## The table -/

/-- Settles O34: each class of byte passes the document's tests down to the branch that holds its action. -/
theorem byteActionMatchesTable : Obligations.ByteActionMatchesTable := by
  unfold Obligations.ByteActionMatchesTable
  refine fun b s => ⟨fun hd => (exec_decodeByte b s).trans (byteAction_done hd b), fun hd hroom => ?_⟩
  obtain ⟨hdata, hstat, hhdr, hterm, hrt, -⟩ := byteClassesPartition.1 b
  rw [exec_decodeByte, byteAction, getLsbD_seven_eq]
  have hidle : ¬ 0 < s.len → s.mode ≠ .accum := fun h => State.mode_ne_accum.2 (.inr (Nat.eq_zero_of_not_pos h))
  have haccum : 0 < s.len → s.mode = .accum := fun h => State.mode_accum.2 ⟨hd, h⟩
  cases hc : classify b with
  | rt => rw [if_pos (hrt.1 hc)]; rfl
  | hdr =>
    have hb := hhdr.1 hc
    rw [if_neg (by omega), if_pos hb]
    exact hdrAction_open hd (Nat.zero_lt_of_lt hroom)
  | stat =>
    have hb := hstat.1 hc
    rw [if_neg (by omega), if_neg (by omega)]
    split_ifs with hl hbranch
    · exact statAction_accum (haccum hl)
    · exact absurd ⟨decide_eq_true (by omega), by omega⟩ hbranch
    · exact statAction_skip (hidle hl)
  | term =>
    have hb := hterm.1 hc
    rw [if_neg (by omega), if_neg (by omega)]
    split_ifs with hl hbranch
    · exact absurd hb hbranch.2
    · obtain rfl := eq_of_classify_term hc
      exact termAction_accum (haccum hl) hroom
    · exact termAction_skip (hidle hl)
  | data =>
    have hb := hdata.1 hc
    rw [if_neg (by omega), if_neg (by omega)]
    split_ifs with hl hbranch
    · exact absurd (of_decide_eq_true hbranch.1) (by omega)
    · have hdone : decide (b.toNat = 0xF7) = s.done := by rw [hd]; exact decide_eq_false (by omega)
      rw [hdone]
      exact dataAction_accum (haccum hl) hroom b
    · exact dataAction_skip (hidle hl) b

/-- The mode a scan is in (R120). -/
def Scan.mode : Scan → Mode
  | .idle => .idle
  | .accum _ => .accum
  | .found _ => .done

theorem State.scan_mode (s : State) : s.scan.mode = s.mode := by
  unfold State.scan
  cases s.mode <;> rfl

/-- Settles O35: an action makes the scan's transition, and that is the one of the law in each mode and class. -/
theorem modeTransitions : Obligations.ModeTransitions := by
  unfold Obligations.ModeTransitions
  intro b s t h
  rw [exec_decodeByte] at h
  rw [← t.scan_mode, byteAction_scan h, ← s.scan_mode]
  cases s.scan with
  | found f => rfl
  | idle => cases hc : classify b <;> simp [Scan.next, Scan.mode, hc]
  | accum f => cases hc : classify b <;> simp [Scan.next, Scan.mode, hc]

end Sys2Proof.Machine
end

section
/-!
SUPPORT. Bytes executed one after another (41_extractor_byte_ops.md R129, R144): they make the scan of their stream, which
holds the last header and the data bytes since; and a drain executes the bytes of the queued events and no other (R15).
-/

namespace Sys2Proof.Machine

open Sys2Proof.Config (usable ringSize frameMax)

/-! ## What a scan holds, in terms of the whole stream -/

/-- The bytes held since an open header: the header and the data bytes among data and real-time bytes (R129). -/
def heldSince (since : List Byte) : List Byte := 0xF0#8 :: since.filter fun b => classify b == .data

/-- Data and real-time bytes only: what may follow a header inside a frame (R76, R77). -/
def InFrame (since : List Byte) : Prop := ∀ b ∈ since, classify b = .data ∨ classify b = .rt

/-- What a scan of the bytes `bs` holds, located in `bs`, real-time bytes included (R129). -/
def Scan.LocatedIn (bs : List Byte) : Scan → Prop
  | .idle => True
  | .accum f => ∃ before since, bs = before ++ 0xF0#8 :: since ∧ InFrame since ∧ f = heldSince since
  | .found f => ∃ before since rest, bs = before ++ 0xF0#8 :: since ++ 0xF7#8 :: rest ∧ InFrame since ∧
      f = heldSince since ++ [0xF7#8]

theorem InFrame.concat {since : List Byte} (h : InFrame since) {b : Byte} (hb : classify b = .data ∨ classify b = .rt) :
    InFrame (since ++ [b]) :=
  List.forall_mem_append.2 ⟨h, List.forall_mem_singleton.2 hb⟩

theorem heldSince_concat_data (since : List Byte) {b : Byte} (hb : classify b = .data) :
    heldSince (since ++ [b]) = heldSince since ++ [b] := by
  simp [heldSince, hb]

theorem heldSince_concat_rt (since : List Byte) {b : Byte} (hb : classify b = .rt) :
    heldSince (since ++ [b]) = heldSince since := by
  simp [heldSince, hb]

/-- A header at the end of the stream is a frame in progress of its own. -/
theorem Scan.locatedIn_header (bs : List Byte) : (Scan.accum [0xF0#8]).LocatedIn (bs ++ [0xF0#8]) :=
  ⟨bs, [], rfl, nofun, rfl⟩

theorem Scan.LocatedIn.next {bs : List Byte} {σ : Scan} (h : σ.LocatedIn bs) (b : Byte) :
    (σ.next b).LocatedIn (bs ++ [b]) := by
  cases σ with
  | found f =>
    obtain ⟨before, since, rest, rfl, hin, rfl⟩ := h
    exact ⟨before, since, rest ++ [b], by simp, hin, rfl⟩
  | idle =>
    cases hc : classify b with
    | hdr =>
      obtain rfl := eq_of_classify_hdr hc
      exact locatedIn_header bs
    | _ => simp [Scan.next, hc, Scan.LocatedIn]
  | accum f =>
    obtain ⟨before, since, hbs, hin, rfl⟩ := h
    cases hc : classify b with
    | hdr =>
      obtain rfl := eq_of_classify_hdr hc
      exact locatedIn_header bs
    | stat => simp [Scan.next, hc, Scan.LocatedIn]
    | rt =>
      rw [Scan.next_rt _ hc]
      exact ⟨before, since ++ [b], by simp [hbs], hin.concat (.inr hc), (heldSince_concat_rt since hc).symm⟩
    | data =>
      simp only [Scan.next, hc]
      exact ⟨before, since ++ [b], by simp [hbs], hin.concat (.inl hc), (heldSince_concat_data since hc).symm⟩
    | term =>
      obtain rfl := eq_of_classify_term hc
      exact ⟨before, since, [], by rw [hbs], hin, rfl⟩

theorem Scan.foldl_next_locatedIn (bs : List Byte) : (bs.foldl Scan.next .idle).LocatedIn bs := by
  induction bs using List.reverseRecOn with
  | nil => trivial
  | append_singleton bs b ih => rw [List.foldl_concat]; exact ih.next b

/-! ## Executing bytes -/

theorem execAll_append (is js : List Instr) (s : State) :
    execAll (is ++ js) s = andThen (execAll is s) (execAll js) := by
  induction is generalizing s with
  | nil => rfl
  | cons i is ih =>
    rw [List.cons_append, execAll, execAll, andThen_assoc]
    exact congrArg (andThen (exec i s)) (funext ih)

/-- Decoded and executed one after another, bytes make the scan of their stream (R121). -/
theorem execAll_bytes_scan {bs : List Byte} {s t : State} (h : execAll (bs.map decodeByte) s = .next t) :
    t.scan = bs.foldl Scan.next s.scan := by
  induction bs generalizing s with
  | nil => rw [Host.Outcome.next.inj h]; rfl
  | cons b bs ih =>
    obtain ⟨u, hu, hrest⟩ := andThen_eq_next.1 h
    rw [exec_decodeByte] at hu
    rw [ih hrest, byteAction_scan hu, List.foldl_cons]

/-- Settles O36: the bytes executed make the scan of their stream, and what that holds is located in the stream. -/
theorem frameInProgress : Obligations.FrameInProgress := by
  unfold Obligations.FrameInProgress
  intro bs s t hidle h
  have hstart : s.scan = .idle := by rw [State.scan, hidle]
  have hlocated : t.scan.LocatedIn bs := by
    rw [execAll_bytes_scan h, hstart]
    exact Scan.foldl_next_locatedIn bs
  refine ⟨fun hm => ?_, fun hm => ?_⟩ <;> (rw [State.scan, hm] at hlocated; exact hlocated)

/-! ## The drain -/

/-- The registers no byte action looks at, with other values (R121). -/
def State.withUnseen (i : Nat) (p : Payload) (k : BitVec 2) (s : State) : State := { s with start := i, cur := p, lane := k }

/-- Every turn of a drain that answers: none on an empty queue, else one event scanned and the rest drained (R140). -/
theorem drain_cases {n turns : Nat} {s t : State} (hr : InRange n s) (h : drain n turns s = .next t) :
    (s.contents n = [] ∧ t = s) ∨
    ∃ left u, turns = left + 1 ∧ scanEvent n (s.slotAt s.start) (s.setStart (nextIndex n s.start)) = .next u ∧
      InRange n u ∧ s.contents n = s.slotAt s.start :: u.contents n ∧ drain n left u = .next t := by
  by_cases he : s.isEmpty = true
  · have hdrain : drain n turns s = .next s := by cases turns <;> rw [drain, if_pos he]
    exact .inl ⟨hr.contents_empty he, Host.Outcome.next.inj (h.symm.trans hdrain)⟩
  · cases turns with
    | zero => rw [drain, if_neg he] at h; cases h
    | succ left =>
      rw [drain, if_neg he, takeOldest_inRange hr.start_lt] at h
      obtain ⟨u, hu, hd⟩ := andThen_eq_next.1 h
      have hframe := (scanEvent_scanned hu).frame
      have hru : InRange n u := by rw [hframe]; exact ⟨nextIndex_lt n _, hr.end_lt⟩
      have hcu : u.contents n = (s.setStart (nextIndex n s.start)).contents n := by
        rw [hframe]; exact State.contents_congr rfl rfl rfl rfl
      exact .inr ⟨left, u, rfl, hu, hru, by rw [hcu, hr.contents_read (by simpa using he)], hd⟩

section Unseen

variable (i : Nat) (p : Payload) (l : BitVec 2)

theorem scanLane_executes {k : BitVec 2} {s t : State} (h : scanLane usable k s = .next t) :
    exec (decodeByte (laneByte s.cur k)) (s.withUnseen i p l) = .next (t.withUnseen i p l) := by
  rw [exec_decodeByte]
  exact byteAction_unseen (s := s.setLane k) i p l h

/-- Scanning an event executes its four bytes, lane 0 first (R144). -/
theorem scanEvent_executes {ev : RawEvent} {s t : State} (h : scanEvent usable ev s = .next t) :
    execAll ((eventBytes ev).map decodeByte) (s.withUnseen i p l) = .next (t.withUnseen i p l) := by
  simp only [scanEvent, andThen_eq_next] at h
  obtain ⟨s3, ⟨s2, ⟨s1, h0, h1⟩, h2⟩, h3⟩ := h
  have c1 : s1.cur = ev.payload := (scanLane_scanned h0).2
  have c2 : s2.cur = ev.payload := (scanLane_scanned h1).2.trans c1
  have c3 : s3.cur = ev.payload := (scanLane_scanned h2).2.trans c2
  have e0 := scanLane_executes i p l h0
  have e1 := scanLane_executes i p l h1
  have e2 := scanLane_executes i p l h2
  have e3 := scanLane_executes i p l h3
  rw [c1] at e1
  rw [c2] at e2
  rw [c3] at e3
  exact (execAll_cons e0 _).trans ((execAll_cons e1 _).trans ((execAll_cons e2 _).trans (execAll_cons e3 [])))

/-- A drain executes the bytes of the queued events, in queue order, and no other (R15). -/
theorem drain_executes {turns : Nat} {s t : State} (hr : InRange usable s) (h : drain usable turns s = .next t) :
    execAll ((streamOf (s.contents usable)).map decodeByte) (s.withUnseen i p l) = .next (t.withUnseen i p l) := by
  induction turns generalizing s with
  | zero =>
    rcases drain_cases hr h with ⟨hq, rfl⟩ | ⟨left, u, hturns, -⟩
    · rw [hq]; rfl
    · cases hturns
  | succ turns ih =>
    rcases drain_cases hr h with ⟨hq, rfl⟩ | ⟨left, u, hturns, hu, hru, hq, hd⟩
    · rw [hq]; rfl
    · obtain rfl := Nat.succ.inj hturns
      have hstream : streamOf (s.contents usable) = eventBytes (s.slotAt s.start) ++ streamOf (u.contents usable) := by
        rw [hq]; rfl
      have hevent := scanEvent_executes i p l hu
      rw [hstream, List.map_append, execAll_append]
      exact (congrArg (andThen · _) hevent).trans (ih hru hd)

end Unseen

/-- A pass that drains to `v` hands back the result `v` holds (R140). -/
theorem fxExtract_of_drain {n : Nat} {s v : State} (hl : s.life = .ready)
    (hd : drain n (ringSize n) ((s.setLen 0).setDone false) = .next v) :
    fxExtract n s = .next ((v.answer v.passResult).dropPass n) := by
  rw [fxExtract, whenLife_same hl, hd, andThen_next]

/-- Clearing `len` and `done` moves no index (R140). -/
theorem InRange.beginPass {n : Nat} {s : State} (hr : InRange n s) : InRange n ((s.setLen 0).setDone false) :=
  ⟨hr.start_lt, hr.end_lt⟩

/-- The drain of a pass completes: the bytes of at most `N` events fit the frame buffer (R148). -/
theorem drain_of_pass_completes {n : Nat} {s : State} (hr : InRange n s) :
    ∃ v, drain n (ringSize n) ((s.setLen 0).setDone false) = .next v := by
  have hle : s.count n ≤ n := s.count_le n
  refine drain_completes hr.beginPass (hle.trans (Nat.le_succ n)) ?_
  exact (Nat.zero_add _).trans_le (Nat.mul_le_mul_left 4 hle)

/-- Settles O60: the drain of the pass executes those bytes, with `start`, `cur` and `lane` unseen. -/
theorem passRunsStreamBytes : Obligations.PassRunsStreamBytes := by
  unfold Obligations.PassRunsStreamBytes
  intro s hl hr
  obtain ⟨v, hd⟩ := drain_of_pass_completes hr
  have hstart : v.start = s.end_ := by rw [(drain_scanned hr.beginPass hd).frame]; rfl
  refine ⟨_, v.withUnseen s.start s.cur s.lane, v, drain_executes s.start s.cur s.lane hr.beginPass hd, hd, ?_,
    fxExtract_of_drain hl hd, rfl⟩
  rw [← hstart]
  rfl

end Sys2Proof.Machine
end

section
/-!
SUPPORT. What a pass hands back, told from the stream of the queue (41_extractor_byte_ops.md R130, 42_extractor_pass.md
R145, R153, R154): the first frame, behind bytes that complete none and before any bytes.
-/

namespace Sys2Proof.Machine

open Sys2Proof.Config (usable)

/-! ## The reply of a pass -/

/-- The triple of a pass over a stream (R35). -/
def streamResult (bs : List Byte) : Reply :=
  match firstFrame bs with
  | some f => .result true f.length f
  | none => .result false 0 []

theorem streamResult_of_firstFrame {bs f : List Byte} (h : firstFrame bs = some f) :
    streamResult bs = .result true f.length f := by
  rw [streamResult, h]

theorem streamResult_of_none {bs : List Byte} (h : firstFrame bs = none) : streamResult bs = .result false 0 [] := by
  rw [streamResult, h]

/-- A pass completes, and its reply is a function of the queue's stream (R121, R140). -/
theorem exec_fxExtract_reply {s : State} (hl : s.life = .ready) (hr : InRange usable s) :
    ∃ t, exec .fxExtract s = .next t ∧ t.reply = streamResult (streamOf (s.contents usable)) :=
  ⟨_, fxExtract_ready hr hl, rfl⟩

/-- Settles O40: the scan finds the first frame or there is none, and a start is unique since headers are no data. -/
theorem extractReturnsFirstFrame : Obligations.ExtractReturnsFirstFrame := by
  unfold Obligations.ExtractReturnsFirstFrame
  refine ⟨fun s hl hr => ?_, fun bs => ?_, fun bs i i' j => FrameAt.start_unique⟩
  · obtain ⟨t, ht, hreply⟩ := exec_fxExtract_reply hl hr
    refine ⟨t, ht, fun f hf => ?_, fun hno => ?_⟩
    · rw [hreply, streamResult_of_firstFrame (firstFrame_eq_some_iff.2 hf)]
    · rw [hreply, streamResult_of_none (firstFrame_eq_none_iff.2 hno)]
  · cases hf : firstFrame bs with
    | none => exact .inl (firstFrame_eq_none_iff.1 hf)
    | some f => exact .inr ⟨f, firstFrame_eq_some_iff.1 hf⟩

/-- Settles O45: the reply is a function of the stream, and an event has four bytes. -/
theorem cuttingIndependence : Obligations.CuttingIndependence := by
  unfold Obligations.CuttingIndependence
  intro s s' hl hl' hr hr' hstream
  constructor
  · obtain ⟨t, ht, hreply⟩ := exec_fxExtract_reply hl hr
    obtain ⟨t', ht', hreply'⟩ := exec_fxExtract_reply hl' hr'
    exact ⟨t, t', ht, ht', by rw [hreply, hreply', hstream]⟩
  · have hlen := congrArg List.length hstream
    rw [streamOf_length, streamOf_length] at hlen
    exact Nat.eq_of_mul_eq_mul_left (Nat.succ_pos 3) hlen

/-! ## Streams of several pieces -/

/-- A complete frame stands whatever follows (R146). -/
theorem foldl_next_found (f bs : List Byte) : bs.foldl Scan.next (.found f) = .found f :=
  List.foldl_fixed' (fun _ => rfl) bs

theorem foldl_next_idle_data {d : List Byte} (hd : ∀ b ∈ d, classify b = .data) :
    d.foldl Scan.next .idle = .idle := by
  induction d with
  | nil => rfl
  | cons b d ih =>
    obtain ⟨hb, hd⟩ := List.forall_mem_cons.1 hd
    have hnext : Scan.idle.next b = .idle := by simp [Scan.next, hb]
    rw [List.foldl_cons, hnext, ih hd]

/-- While no frame is complete a header starts one (R124). -/
theorem foldl_next_header {g : List Byte} (h : firstFrame g = none) :
    (g ++ [0xF0#8]).foldl Scan.next .idle = .accum [0xF0#8] := by
  rw [List.foldl_concat]
  cases hσ : g.foldl Scan.next .idle with
  | found f => rw [firstFrame_eq_some.2 hσ] at h; cases h
  | idle | accum => rfl

/-- A frame behind bytes that complete none is the first frame, whatever follows (R153). -/
theorem IsFrame.firstFrame_append {f : List Byte} (hf : IsFrame f) {g : List Byte} (hg : firstFrame g = none)
    (h : List Byte) : firstFrame (g ++ f ++ h) = some f := by
  obtain ⟨d, hd, rfl⟩ := hf
  have hpieces : g ++ 0xF0#8 :: (d ++ [0xF7#8]) ++ h = (g ++ [0xF0#8]) ++ d ++ 0xF7#8 :: h := by simp
  rw [firstFrame_eq_some, hpieces, List.foldl_append, List.foldl_append, foldl_next_header hg,
    foldl_next_accum_data hd, List.foldl_cons]
  exact foldl_next_found _ h

/-- A frame with a status byte in it completes nothing (R125). -/
theorem firstFrame_broken {d d' : List Byte} {x : Byte} (hx : classify x = .stat) (hd : ∀ b ∈ d, classify b = .data)
    (hd' : ∀ b ∈ d', classify b = .data) : firstFrame (0xF0#8 :: d ++ x :: d' ++ [0xF7#8]) = none := by
  have hhdr : Scan.idle.next 0xF0#8 = .accum [0xF0#8] := rfl
  have habandon : (Scan.accum ([0xF0#8] ++ d)).next x = .idle := by simp [Scan.next, hx]
  have hscan : (0xF0#8 :: d ++ x :: d' ++ [0xF7#8]).foldl Scan.next .idle = .idle := by
    rw [List.foldl_concat, List.foldl_append, List.foldl_cons, List.foldl_cons, hhdr, foldl_next_accum_data hd,
      habandon, foldl_next_idle_data hd']
    rfl
  rw [firstFrame, hscan]

/-- What a pass hands back when a frame stands behind bytes that complete none. -/
theorem exec_fxExtract_frame {g d h : List Byte} {s : State} (hl : s.life = .ready) (hr : InRange usable s)
    (hg : firstFrame g = none) (hd : ∀ b ∈ d, classify b = .data)
    (hstream : streamOf (s.contents usable) = g ++ (0xF0#8 :: d ++ [0xF7#8]) ++ h) :
    ∃ t, exec .fxExtract s = .next t ∧ t.reply = .result true (d.length + 2) (0xF0#8 :: d ++ [0xF7#8]) := by
  obtain ⟨t, ht, hreply⟩ := exec_fxExtract_reply hl hr
  have hframe : IsFrame (0xF0#8 :: d ++ [0xF7#8]) := ⟨d, hd, rfl⟩
  have hlen : (0xF0#8 :: d ++ [0xF7#8]).length = d.length + 2 := by simp
  refine ⟨t, ht, ?_⟩
  rw [hreply, hstream, streamResult_of_firstFrame (hframe.firstFrame_append hg h), hlen]

/-- Settles O51: `NoFrame` says the bytes in front complete no frame. -/
theorem frameThenGarbage : Obligations.FrameThenGarbage := by
  unfold Obligations.FrameThenGarbage
  intro g d h s hl hr hg hd hstream
  exact exec_fxExtract_frame hl hr (firstFrame_eq_none_iff.2 hg) hd hstream

/-- Settles O52: the broken frame completes nothing, so it is garbage in front of the later one. -/
theorem strayStatusByte : Obligations.StrayStatusByte := by
  unfold Obligations.StrayStatusByte
  intro d d' e h x s hl hr hx hd hd' he
  have hbroken := firstFrame_broken hx hd hd'
  refine ⟨fun hstream => ?_, exec_fxExtract_frame hl hr hbroken he⟩
  obtain ⟨t, ht, hreply⟩ := exec_fxExtract_reply hl hr
  exact ⟨t, ht, by rw [hreply, hstream, streamResult_of_none hbroken]⟩

end Sys2Proof.Machine
end

section
/-!
SUPPORT. The state a pass leaves behind (42_extractor_pass.md R141 to R152): the queue is empty and the status is what
it was, found or not; the timestamps, and the bytes behind a complete frame, have no part in the reply.
-/

namespace Sys2Proof.Machine

open Sys2Proof.Config (usable)

/-! ## What a pass leaves -/

/-- From `s` to `t` a pass was made over a ring of `n` usable elements: both indices are where `end` was, the status
registers are unchanged, and the reply is that of the stream (R140, R141). -/
structure Passed (n : Nat) (s t : State) : Prop where
  life_eq : t.life = s.life
  fault_eq : t.fault = s.fault
  start_eq : t.start = s.end_
  end_eq : t.end_ = s.end_
  reply_eq : t.reply = streamResult (streamOf (s.contents n))

theorem exec_fxExtract_passed {s : State} (hl : s.life = .ready) (hr : InRange usable s) :
    ∃ t, exec .fxExtract s = .next t ∧ Passed usable s t :=
  ⟨_, fxExtract_ready hr hl, rfl, rfl, rfl, rfl, rfl⟩

theorem Passed.inRange {n : Nat} {s t : State} (h : Passed n s t) (hr : InRange n s) : InRange n t :=
  ⟨h.start_eq ▸ hr.end_lt, h.end_eq ▸ hr.end_lt⟩

theorem Passed.contents_eq {n : Nat} {s t : State} (h : Passed n s t) (hr : InRange n s) : t.contents n = [] :=
  (h.inRange hr).contents_of_eq (h.end_eq.trans h.start_eq.symm)

/-- Settles O41: the pass leaves both indices where `end` was, and equal indices hold no event. -/
theorem extractEmptiesQueue : Obligations.ExtractEmptiesQueue := by
  unfold Obligations.ExtractEmptiesQueue
  intro s hl hr
  obtain ⟨t, ht, hp⟩ := exec_fxExtract_passed hl hr
  exact ⟨t, ht, hp.start_eq, hp.end_eq, hp.contents_eq hr⟩

/-! ## Timestamps -/

/-- The bytes of a payload, lane 0 first (R72). -/
def payloadBytes (p : Payload) : List Byte := [laneByte p 0, laneByte p 1, laneByte p 2, laneByte p 3]

/-- The stream of a queue is told from the payloads alone (R27). -/
theorem streamOf_eq_payloadBytes (q : List RawEvent) : streamOf q = (q.map RawEvent.payload).flatMap payloadBytes :=
  (List.flatMap_map RawEvent.payload payloadBytes q).symm

/-- Settles O44: equal payloads give equal streams, so cutting independence gives equal replies. -/
theorem timestampsIgnored : Obligations.TimestampsIgnored := by
  unfold Obligations.TimestampsIgnored
  intro s s' hl hl' hr hr' hpayloads
  have hstream : streamOf (s.contents usable) = streamOf (s'.contents usable) := by
    rw [streamOf_eq_payloadBytes, streamOf_eq_payloadBytes, hpayloads]
  exact (cuttingIndependence s s' hl hl' hr hr' hstream).1

/-! ## A complete frame -/

/-- The frame of a first part of a stream is the frame of the stream (R146). -/
theorem firstFrame_append_of_eq_some {u f : List Byte} (h : firstFrame u = some f) (v : List Byte) :
    firstFrame (u ++ v) = some f := by
  rw [firstFrame_eq_some, List.foldl_append, firstFrame_eq_some.1 h, foldl_next_found]

/-- Settles O46: the bytes behind leave the first frame as it is, and the pass drains them with the rest. -/
theorem completeFrameIsFixed : Obligations.CompleteFrameIsFixed := by
  unfold Obligations.CompleteFrameIsFixed
  intro u v f s hl hr hf hstream
  obtain ⟨t, ht, hp⟩ := exec_fxExtract_passed hl hr
  have hfirst : firstFrame (u ++ v) = some f := firstFrame_append_of_eq_some (firstFrame_eq_some_iff.2 hf) v
  exact ⟨t, ht, by rw [hp.reply_eq, hstream, streamResult_of_firstFrame hfirst], hp.contents_eq hr⟩

/-! ## No complete frame -/

/-- A stream with a complete frame has a header and a terminator in it (R76). -/
theorem FrameAt.mem_of_withoutRt {bs : List Byte} {i j : Nat} (h : FrameAt (withoutRt bs) i j) :
    0xF0#8 ∈ bs ∧ 0xF7#8 ∈ bs := by
  obtain ⟨-, hhdr, hterm, -⟩ := h
  exact ⟨List.mem_of_mem_filter (List.mem_of_getElem? hhdr), List.mem_of_mem_filter (List.mem_of_getElem? hterm)⟩

theorem noFrame_of_header_notMem {bs : List Byte} (h : 0xF0#8 ∉ bs) : NoFrame bs :=
  fun _ _ hij => h hij.mem_of_withoutRt.1

theorem noFrame_of_terminator_notMem {bs : List Byte} (h : 0xF7#8 ∉ bs) : NoFrame bs :=
  fun _ _ hij => h hij.mem_of_withoutRt.2

theorem noFrame_streamOf_nil : NoFrame (streamOf []) := noFrame_of_header_notMem List.not_mem_nil

/-- Over a stream that completes no frame a pass answers "not found" (R149). -/
theorem Passed.reply_of_noFrame {n : Nat} {s t : State} (h : Passed n s t) (hno : NoFrame (streamOf (s.contents n))) :
    t.reply = .result false 0 [] := by
  rw [h.reply_eq, streamResult_of_none (firstFrame_eq_none_iff.2 hno)]

/-- Settles O48: an empty queue has no header, and without a header or a terminator no frame is complete. -/
theorem notFoundIsNormal : Obligations.NotFoundIsNormal := by
  unfold Obligations.NotFoundIsNormal
  intro s hl hr hcases
  have hno : NoFrame (streamOf (s.contents usable)) := by
    rcases hcases with hempty | hhdr | hterm | hno
    · exact hempty ▸ noFrame_streamOf_nil
    · exact noFrame_of_header_notMem hhdr
    · exact noFrame_of_terminator_notMem hterm
    · exact hno
  obtain ⟨t, ht, hp⟩ := exec_fxExtract_passed hl hr
  exact ⟨t, ht, hp.reply_of_noFrame hno, hp.fault_eq⟩

/-- Settles O50: the first pass leaves a ready ring with an empty queue, over which the second finds nothing. -/
theorem secondPassFindsNothing : Obligations.SecondPassFindsNothing := by
  unfold Obligations.SecondPassFindsNothing
  intro s hl hfault hr
  obtain ⟨t, ht, hp⟩ := exec_fxExtract_passed hl hr
  obtain ⟨u, hu, hq⟩ := exec_fxExtract_passed (hp.life_eq.trans hl) (hp.inRange hr)
  have hno : NoFrame (streamOf (t.contents usable)) := hp.contents_eq hr ▸ noFrame_streamOf_nil
  exact ⟨t, u, ht, hu, hq.reply_of_noFrame hno, hq.fault_eq.trans (hp.fault_eq.trans hfault)⟩

end Sys2Proof.Machine
end

section
/-!
SUPPORT. A step from a state with the invariant answers a next state (60_exceptions.md R160, R177).
-/

namespace Sys2Proof.Machine

open Sys2Proof.Config (usable)

/-- A step that takes a command which decodes answers a next state when the indices are in range. -/
theorem step_completes_of_decode {s : State} {code : BitVec 3} {operand : EventBits} {rest : List Request} {i : Instr}
    (hr : InRange usable s) (hin : s.inbox = .command code operand :: rest)
    (hdec : decode (.cmd code operand) = .ok i) : ∃ t, step s = .next t := by
  have hrest : InRange usable (s.take rest) := ⟨hr.start_lt, hr.end_lt⟩
  obtain ⟨t, ht, -⟩ := exec_refines (isCommand_of_decode_cmd hdec) hrest
  exact ⟨t, by rw [step_of_decode hin hdec, ht]⟩

/-- Settles O56: every command answers from a state in range, and hardware reset and idling always do. -/
theorem blockNeverStops : Obligations.BlockNeverStops := by
  unfold Obligations.BlockNeverStops
  intro s hi hdecodes
  cases hin : s.inbox with
  | nil => exact ⟨s, by rw [step, hin]⟩
  | cons r rest =>
    cases r with
    | command code operand =>
      obtain ⟨i, hdec⟩ := hdecodes code operand rest hin
      exact step_completes_of_decode hi.toInRange hin hdec
    | hardwareReset => exact ⟨State.hardwareReset usable (s.take rest), by simp only [step, hin, runRequest]⟩

end Sys2Proof.Machine
end

section
/-!
SUPPORT. The faults of the block (60_exceptions.md R161 to R169): a command raises one fault and does nothing else, or
runs and reports none.
-/

namespace Sys2Proof.Machine

/-- A pass hands back the triple of R35, found or not. -/
theorem State.passResult_ne_fault (s : State) (c : FaultCode) : s.passResult ≠ .fault c := by
  unfold State.passResult
  split <;> exact nofun

/-- A command raises `NOT_READY` by the guard, or is an `RB_READ` in READY that raises `UNDERFLOW`, or runs, and then
leaves `fault` and reports none (R161, R167). -/
theorem CommandEffect.fault_cases {n : Nat} {i : Instr} {s t : State} (h : CommandEffect n i s t) :
    t = s.raise .notReady ∨ (i = .rbRead ∧ s.life = .ready ∧ t = s.raise .underflow) ∨
      (t.fault = s.fault ∧ ∀ c, t.reply ≠ .fault c) := by
  cases h with
  | wrongLife => exact .inl rfl
  | readEmpty hl => exact .inr (.inl ⟨rfl, hl, rfl⟩)
  | write => exact .inr (.inr ⟨by rw [evictIfFilled_stored_frame]; rfl, nofun⟩)
  | @extract _ u _ hd => exact .inr (.inr ⟨by rw [pass_frame hd]; rfl, u.passResult_ne_fault⟩)
  | _ => exact .inr (.inr ⟨rfl, nofun⟩)

/-- The fault a command reports is the one it raised, and raising it is all it did (R161). -/
theorem CommandEffect.eq_raise {n : Nat} {i : Instr} {s t : State} {c : FaultCode} (h : CommandEffect n i s t)
    (hc : t.reply = .fault c) : t = s.raise c := by
  rcases h.fault_cases with rfl | ⟨-, -, rfl⟩ | ⟨-, hno⟩
  · exact Reply.fault.inj hc ▸ rfl
  · exact Reply.fault.inj hc ▸ rfl
  · exact absurd hc (hno c)

/-- Settles O11: a command that reports a fault has raised it, and the bits of the two codes are those of R29. -/
theorem faultedCommandChangesNothingElse : Obligations.FaultedCommandChangesNothingElse := by
  unfold Obligations.FaultedCommandChangesNothingElse
  intro i s t c hi h hc
  rw [(exec_commandEffect hi h).eq_raise hc]
  cases c <;> rfl

/-- Settles O13: a command's three effects on `fault`, and the life-cycle guard for `RB_READ` without a ring. -/
theorem atMostOneFaultGuardFirst : Obligations.AtMostOneFaultGuardFirst := by
  unfold Obligations.AtMostOneFaultGuardFirst
  refine ⟨fun i s t hi h => ?_, fun s => exec_uninit rfl nofun⟩
  rcases (exec_commandEffect hi h).fault_cases with rfl | ⟨hread, hl, rfl⟩ | ⟨hfault, -⟩
  · exact .inr (.inl ⟨rfl, rfl⟩)
  · exact .inr (.inr ⟨hread, hl, rfl, rfl⟩)
  · exact .inl hfault

/-- `NOT_READY` is bit 0: raising it leaves bit 1, that of `UNDERFLOW` (R29). -/
theorem State.raise_notReady_underflowBit (s : State) :
    (s.raise .notReady).fault.getLsbD 1 = s.fault.getLsbD 1 := by
  simp [FaultCode.bit]

/-- Settles O14: the empty test of `RB_READ` raises `UNDERFLOW`, and a pass can raise `NOT_READY` only. -/
theorem readEmptyUnderflows : Obligations.ReadEmptyUnderflows := by
  unfold Obligations.ReadEmptyUnderflows
  refine ⟨fun s hl he => rbRead_empty hl (State.isEmpty_iff_eq.2 he), fun s t h => ?_⟩
  rcases (fxExtract_effect h).fault_cases with rfl | ⟨hread, -, -⟩ | ⟨hfault, hno⟩
  · exact ⟨nofun, s.raise_notReady_underflowBit⟩
  · cases hread
  · exact ⟨hno .underflow, hfault ▸ rfl⟩

end Sys2Proof.Machine
end

section
/-!
SUPPORT. Hardware reset (70_reset_and_hazards.md R190): the step that takes the request, and the registers it leaves
inside the legal values of 10_state.md R20.
-/

namespace Sys2Proof.Machine

open Sys2Proof.Config (usable frameMax)

/-- The step takes the request from the inbox and resets the block, from any state (R190). -/
theorem step_of_hardwareReset {s : State} {rest : List Request} (hin : s.inbox = .hardwareReset :: rest) :
    step s = .next (State.hardwareReset usable (s.take rest)) := by
  simp only [step, hin, runRequest]

theorem State.dropPass_len_le (n : Nat) (s : State) : (s.dropPass n).len ≤ frameMax n :=
  Nat.le_of_lt_succ (Nat.mod_lt _ (Nat.succ_pos _))

/-- Dropping the working state and answering leave the indices where `dropRing` put them, in range. -/
theorem State.hardwareReset_inRange (n : Nat) (s : State) : InRange n (s.hardwareReset n) :=
  have hring : InRange n ((s.setLife .uninit).clearFault.dropRing n) := State.dropRing_inRange n _
  ⟨hring.start_lt, hring.end_lt⟩

/-- Settles O9: the reset state has `life`, `fault` and the reply written, and free values inside their ranges. -/
theorem hardwareResetEffect : Obligations.HardwareResetEffect := by
  unfold Obligations.HardwareResetEffect
  intro s rest hin
  exact ⟨_, step_of_hardwareReset hin, rfl, rfl, rfl, rfl, State.hardwareReset_inRange usable _,
    State.dropPass_len_le usable _⟩

end Sys2Proof.Machine
end
